-- ==== Sys2Proof/Word.lean ====
section
/-! DEFINITION. The words of the MEE: bytes of the two buffers and 32-bit control words.
Integer registers hold natural numbers (`00_scope.md` R7, R10), so they are `Nat` and have no word type. -/

namespace Sys2Proof

/-- A byte, "a natural number below 256" (`00_scope.md` R11). -/
abbrev Byte := BitVec 8

/-- A control register's value, or a command word (`10_state.md` R33, `30_encoding.md` R63). -/
abbrev Word32 := BitVec 32

end Sys2Proof
end

