-- ==== Sys2Proof/Config.lean ====
section
/-! DEFINITION. What an implementation fixes: the one parameter KBYTES (`00_scope.md` R7, R8).
Its VALUE is carried in `State.kbytes` (log 1), so that a statement about every state is a statement about every
KBYTES. The spec leaves nothing as `any value`, so there is no free value here. -/

namespace Sys2Proof.Config

/-- "Constraints: `1 <= KBYTES <= 65535`" (`00_scope.md` R7). -/
def minKbytes : Nat := 1

/-- "Constraints: `1 <= KBYTES <= 65535`" (`00_scope.md` R7). -/
def maxKbytes : Nat := 65535

/-- The KBYTES of `State.reset`. DESIGN CHOICE (log 1): the spec leaves it open; every program of
`95_test_vectors.md` takes `KBYTES = 4`. -/
def resetKbytes : Nat := 4

end Sys2Proof.Config
end

