-- ==== Sys2Proof/Machine/Transaction.lean ====
section
/-! DEFINITION. What the outside world does to the block: the seven host transactions (`43_host_interface.md` R104,
an abstract tuple by `30_encoding.md` R73), reset (`70_reset_and_hazards.md` R142) and the engine's turns. -/

namespace Sys2Proof.Machine

/-- A host transaction (`43_host_interface.md` R104). The argument types are the ranges of that table; only the
value of `WrIR` has a range that depends on KBYTES, which `HostTxn.expressible` checks. -/
inductive HostTxn where
  /-- `RdCtl(r)`, `0 <= r < 2^16` (R105). -/
  | rdCtl (r : Fin 65536)
  /-- `WrCtl(r, v)`, `v` a 32-bit value (R106); `r = 0` is a command (R113, R114). -/
  | wrCtl (r : Fin 65536) (v : Word32)
  /-- `WrIR(k, v)`, `0 <= k <= 15`, `0 <= v < 2^W` (R107). -/
  | wrIR (k : Fin 16) (v : Nat)
  /-- `RdIR(k)`, `0 <= k <= 15` (R108). -/
  | rdIR (k : Fin 16)
  /-- `WrIBUF(i, b)`, `0 <= i < 2^16` (R109). -/
  | wrIBUF (i : Fin 65536) (b : Byte)
  /-- `RdIBUF(i)`, `0 <= i < 2^16` (R110). -/
  | rdIBUF (i : Fin 65536)
  /-- `RdOBUF(i)`, `0 <= i < 2^16` (R111). -/
  | rdOBUF (i : Fin 65536)
deriving DecidableEq, Repr

/-- One entry of the order in which the agents move (`20_memory.md` R58: "one total order of these transitions").
The list of them is an input of the step relation (`10_state.md` R43), held in State by the model (log 2). -/
inductive Event where
  /-- The HOST performs a transaction. -/
  | host (t : HostTxn)
  /-- The ENGINE has its turn: it takes its enabled step, and does nothing where none is enabled (log 4). -/
  | engine
  /-- The platform asserts reset (`70_reset_and_hazards.md` R142). -/
  | reset
deriving DecidableEq, Repr

/-- What a transaction returns to the host (`43_host_interface.md` R104, column "returns"). -/
inductive Reply where
  /-- `RdCtl` returns a 32-bit value. -/
  | ctl (v : Word32)
  /-- `RdIR` returns a value below `2^W`. -/
  | int (v : Nat)
  /-- `RdIBUF` and `RdOBUF` return a byte. -/
  | byte (b : Byte)
deriving DecidableEq, Repr

/-- `W = 8 * KBYTES`, the width in bits of every integer register (`00_scope.md` R7). -/
def width (kbytes : Nat) : Nat := 8 * kbytes

/-- "Arguments outside the stated ranges cannot be expressed (the ranges are the widths of the transaction's
fields)" (`43_host_interface.md` R104): the value of a `WrIR` is below `2^W`. -/
def HostTxn.expressible (kbytes : Nat) : HostTxn → Bool
  | .wrIR _ v => decide (v < 2 ^ width kbytes)
  | .rdCtl _ => true
  | .wrCtl _ _ => true
  | .rdIR _ => true
  | .wrIBUF _ _ => true
  | .rdIBUF _ => true
  | .rdOBUF _ => true

end Sys2Proof.Machine
end

