-- ==== Sys2Proof/Syntax.lean ====
section
/-! DEFINITION. The commands of the MEE, one constructor per row of `spec/opcode_table.json`. -/

namespace Sys2Proof

/-- The three commands (`30_encoding.md` R64). No command carries an operand in its encoding (R65): every operand
is a fixed register or buffer, so no constructor has an argument. -/
inductive Instr where
  /-- `MODPOW`, word 0x00000001 (`40_modpow_engine.md` R77). -/
  | modpow
  /-- `ENCRYPT`, word 0x00000002 (`41_encrypt.md` R93). -/
  | encrypt
  /-- `DECRYPT`, word 0x00000003 (`42_decrypt.md` R98). -/
  | decrypt
deriving DecidableEq, Repr

end Sys2Proof
end

