-- ==== Sys2Proof/WellFormed.lean ====
section
/-! DEFINITION. Which terms are well formed. A command has no operand (`30_encoding.md` R65), so every `Instr` is;
a host transaction is when its arguments are in the ranges of `43_host_interface.md` R104. -/

namespace Sys2Proof

/-- "No command carries an operand in its encoding" (`30_encoding.md` R65): there is nothing to check. -/
def Instr.wellFormed : Instr → Bool
  | .modpow => true
  | .encrypt => true
  | .decrypt => true

/-- An event the outside world can present to a block of capacity `kbytes`. -/
def Machine.Event.wellFormed (kbytes : Nat) : Machine.Event → Bool
  | .host t => t.expressible kbytes
  | .engine => true
  | .reset => true

end Sys2Proof
end

