-- ==== Sys2Proof/Decode.lean ====
section
/-! DEFINITION. Decoding and encoding of command words (`30_encoding.md` R63 to R68, R74). -/

namespace Sys2Proof

/-- What `decode` answers: a command, or ILLEGAL by name (`30_encoding.md` R74). -/
inductive Decoded where
  | command (i : Instr)
  | illegal
deriving DecidableEq, Repr

/-- Decode of a command word, total on all `2^32` words (`30_encoding.md` R74): the whole word is compared (R63). -/
def decode (w : Word32) : Decoded :=
  if w = 0x00000001#32 then .command .modpow
  else if w = 0x00000002#32 then .command .encrypt
  else if w = 0x00000003#32 then .command .decrypt
  else .illegal

/-- The word of a command (`30_encoding.md` R64, column `OPCODE`). -/
def encode : Instr → Word32
  | .modpow => 0x00000001#32
  | .encrypt => 0x00000002#32
  | .decrypt => 0x00000003#32

/-- A row of the command table of `30_encoding.md` R64. -/
structure OpcodeRow where
  instr : Instr
  matchBits : Word32
  mask : Word32
deriving DecidableEq, Repr

/-- The columns `match` and `mask` of `30_encoding.md` R64. -/
def opcodeTable : List OpcodeRow :=
  [⟨.modpow, 0x00000001#32, 0xFFFFFFFF#32⟩, ⟨.encrypt, 0x00000002#32, 0xFFFFFFFF#32⟩,
   ⟨.decrypt, 0x00000003#32, 0xFFFFFFFF#32⟩]

/-- "A word `w` selects a command when `w AND mask = match`" (`30_encoding.md` R64). -/
def OpcodeRow.selects (row : OpcodeRow) (w : Word32) : Bool := w &&& row.mask = row.matchBits

/-- The host's view of the decoder: the number's bits above `nbits` are zero, and a command is one 32-bit number
with no byte order (`20_memory.md` R51), so a number of more than 32 bits is no command word. -/
def decodeTableWord (nbits w : Nat) : Option Instr :=
  if w % 2 ^ nbits < 2 ^ 32 then
    match decode (BitVec.ofNat 32 (w % 2 ^ nbits)) with
    | .command i => some i
    | .illegal => none
  else none

end Sys2Proof
end

