-- ==== Sys2Proof/Machine/State.lean ====
section
/-! DEFINITION. The state of one block: the tuple of `10_state.md` R43, and three fields of the model's own. -/

namespace Sys2Proof.Machine

/-- A buffer's bytes by offset, in canonical form: offsets strictly rising and no entry 0x00, which is what an
unlisted offset reads as (the reset content of both buffers, `10_state.md` R42). -/
abbrev Memory := List Host.Cell

/-- The sequencing state (`10_state.md` R30). -/
inductive Phase where
  /-- No engine step is enabled; the block waits for a command. -/
  | idle
  /-- Exactly one engine step is enabled. -/
  | run
deriving DecidableEq, Repr

/-- `10_state.md` R43: "The complete state of one block is the tuple". The last three fields are the model's. -/
structure State where
  /-- `IR[0..11]` (`10_state.md` R15): `N E P Q D DP DQ QINV OPB OPE OPM RES`. -/
  ir : Vector Nat 12
  /-- `IBUF` (`10_state.md` R25). -/
  ibuf : Memory
  /-- `ILEN` (`10_state.md` R38). -/
  ilen : Nat
  /-- `OBUF` (`10_state.md` R26). -/
  obuf : Memory
  /-- `OLEN` (`10_state.md` R39). -/
  olen : Nat
  /-- `WB`, the working base (`10_state.md` R27). -/
  wb : Nat
  /-- `WX`, the working exponent (`10_state.md` R27). -/
  wx : Nat
  /-- `WM`, the working modulus (`10_state.md` R27). -/
  wm : Nat
  /-- `WR`, the result accumulator (`10_state.md` R27). -/
  wr : Nat
  /-- `OP` (`10_state.md` R29), read through `CMD`. -/
  op : Word32
  /-- `PHASE` (`10_state.md` R30). -/
  phase : Phase
  /-- `DONE` (`10_state.md` R31). -/
  done : Bool
  /-- `ERRCODE` (`10_state.md` R32). -/
  errcode : BitVec 4
  /-- KBYTES, the constant that `CAP` reads (`10_state.md` R37): a parameter, carried here and never changed by a
  step. DESIGN CHOICE (log 1). -/
  kbytes : Nat
  /-- What the agents do next, in order (`10_state.md` R43: inputs of the step relation). DESIGN CHOICE (log 2). -/
  pending : List Event
  /-- What the transaction of the last step returned to the host. DESIGN CHOICE (log 5). -/
  reply : Option Reply
deriving DecidableEq, Repr

/-- Evaluations the spec says never happen; each is safe, and no state that meets `Sys2Proof.Inv` raises one (log 6). -/
inductive Fault where
  /-- Raised by the engine's iteration step with `WM = 0`: "no rule evaluates `a mod 0`" (`00_scope.md` R10). Safe. -/
  | moduloZero
  /-- Raised by the engine's finish step when the result has more than KBYTES bytes: "the sequence always fits"
  (`20_memory.md` R47). Safe. -/
  | outputOverrun
deriving DecidableEq, Repr

/-- Inputs the model gives no meaning. -/
inductive Refusal where
  /-- Raised by an arm of `exec` whose instruction has no meaning yet; no arm raises it. Safe. -/
  | notModelled (mnemonic : String)
  /-- Raised by `step` on a `WrIR` value of `2^W` or more, which "cannot be expressed"
  (`43_host_interface.md` R104). Safe (log 7). -/
  | valueTooWide
deriving DecidableEq, Repr

/-- Reset of a block of capacity `kb`: every value is that of the table of `10_state.md` R42; `pending` and `reply`
are empty (logs 2 and 5). -/
def State.resetWith (kb : Nat) : State where
  ir := Vector.replicate 12 0
  ibuf := []
  ilen := 0
  obuf := []
  olen := 0
  wb := 0
  wx := 0
  wm := 0
  wr := 0
  op := 0x00000000#32
  phase := .idle
  done := false
  errcode := 0#4
  kbytes := kb
  pending := []
  reply := none

/-- The machine right after reset (`10_state.md` R42), with the model's KBYTES (log 1). -/
def State.reset : State := State.resetWith Config.resetKbytes

end Sys2Proof.Machine
end

