-- ==== Sys2Proof/Machine/Arith.lean ====
section
/-! DEFINITION. The arithmetic of naturals that the rules use (`00_scope.md` R10) and the engine's contract as a pure
function (`40_modpow_engine.md` R75). Product, remainder and shift are `Nat`'s own. -/

namespace Sys2Proof.Machine

/-- `bitlen(v)`, the number of bits of `v` (`00_scope.md` R10). -/
def bitlen (v : Nat) : Nat := if v = 0 then 0 else v.log2 + 1

/-- `bytelen(v) = ceil(bitlen(v) / 8)` (`00_scope.md` R10). -/
def bytelen (v : Nat) : Nat := (bitlen v + 7) / 8

/-- `modPow(b, e, m) = (b^e) mod m` for `m >= 1` (`40_modpow_engine.md` R75). Not a step of the machine: what the
steps are claimed to compute. -/
def modPow (b e m : Nat) : Nat := b ^ e % m

end Sys2Proof.Machine
end

