-- ==== Sys2Proof/Machine/Bytes.lean ====
section
/-! DEFINITION. Byte sequences and integers: `OS2IP` and `I2OSP_min` (`00_scope.md` R13, `20_memory.md` R46 to R50). -/

namespace Sys2Proof.Machine

/-- `OS2IP(s) = sum over i in [0, L) of s[i] * 256^(L-1-i)`: big-endian unsigned, first byte most significant
(`00_scope.md` R13, `20_memory.md` R46). -/
def os2ip : List Byte → Nat
  | [] => 0
  | b :: bs => b.toNat * 256 ^ bs.length + os2ip bs

/-- `I2OSP_min(v)`: length `bytelen(v)`, byte `i` is `(v >> (8 * (bytelen(v) - 1 - i))) mod 256`
(`00_scope.md` R13, `20_memory.md` R47). The value 0 is the empty sequence (`20_memory.md` R48). -/
def i2ospMin (v : Nat) : List Byte :=
  (List.range (bytelen v)).map fun i => BitVec.ofNat 8 ((v >>> (8 * (bytelen v - 1 - i))) % 256)

end Sys2Proof.Machine
end

