-- ==== Sys2Proof/Machine/Memory.lean ====
section
/-! DEFINITION. Reading and writing the byte buffers (`00_scope.md` R12: `MemRead`, `MemWrite`), and their canonical
form. Neither knows the capacity: the callers check the offset (`20_memory.md` R56). -/

namespace Sys2Proof.Machine

/-- The canonical form, from offset `lo` on: offsets strictly rising, no entry 0x00. -/
def Memory.wfFrom : Nat → Memory → Bool
  | _, [] => true
  | lo, (a, b) :: m => decide (lo ≤ a) && (b != 0#8) && Memory.wfFrom (a + 1) m

/-- The canonical form of a buffer: equal contents are equal lists. -/
def Memory.wf (m : Memory) : Bool := Memory.wfFrom 0 m

/-- Every listed offset is below `n`. -/
def Memory.below (n : Nat) (m : Memory) : Bool := m.all fun c => decide (c.1 < n)

/-- The byte at offset `a`; an unlisted offset reads 0x00, the reset content (`10_state.md` R42). -/
def Memory.read : Memory → Nat → Byte
  | [], _ => 0#8
  | (a', b') :: m, a => if a = a' then b' else Memory.read m a

/-- `B[a] <- b`, keeping the canonical form: writing 0x00 removes the entry. -/
def Memory.write : Memory → Nat → Byte → Memory
  | [], a, b => if b = 0#8 then [] else [(a, b)]
  | (a', b') :: m, a, b =>
    if a < a' then (if b = 0#8 then (a', b') :: m else (a, b) :: (a', b') :: m)
    else if a = a' then (if b = 0#8 then m else (a, b) :: m)
    else (a', b') :: Memory.write m a b

/-- `MemRead(B, off, n)` (`00_scope.md` R12). -/
def Memory.readBytes (m : Memory) (off n : Nat) : List Byte :=
  (List.range n).map fun i => Memory.read m (off + i)

/-- `MemWrite(B, off, n, s)` with `n` the length of `s` (`00_scope.md` R12). -/
def Memory.writeBytes : Memory → Nat → List Byte → Memory
  | m, _, [] => m
  | m, off, b :: bs => Memory.writeBytes (Memory.write m off b) (off + 1) bs

/-- The whole array written with the sequence `s` and 0x00 after it (`40_modpow_engine.md` R82: "for bytelen(v) <= i
< KBYTES: OBUF[i] <- 0x00"): nothing of the array before survives. -/
def Memory.ofBytes (s : List Byte) : Memory := Memory.writeBytes [] 0 s

end Sys2Proof.Machine
end

