-- ==== Sys2Proof/Machine/Operands.lean ====
section
/-! DEFINITION. The register numbers (`10_state.md` R15, R33), the one accessor pair of the integer registers, and the
implicit operands of the commands (`30_encoding.md` R65). -/

namespace Sys2Proof.Machine

/-- Public key: modulus. Indexes as in the table of `10_state.md` R15. -/
abbrev IR.N : Fin 12 := 0
/-- Public key: public exponent. -/
abbrev IR.E : Fin 12 := 1
/-- Private key: first factor. -/
abbrev IR.P : Fin 12 := 2
/-- Private key: second factor. -/
abbrev IR.Q : Fin 12 := 3
/-- Private key: private exponent. -/
abbrev IR.D : Fin 12 := 4
/-- Private key: CRT value `d mod (p-1)`; no command reads it (`10_state.md` R18). -/
abbrev IR.DP : Fin 12 := 5
/-- Private key: CRT value `d mod (q-1)`; no command reads it (`10_state.md` R18). -/
abbrev IR.DQ : Fin 12 := 6
/-- Private key: CRT value, inverse of `q` mod `p`; no command reads it (`10_state.md` R18). -/
abbrev IR.QINV : Fin 12 := 7
/-- Raw operand: base. -/
abbrev IR.OPB : Fin 12 := 8
/-- Raw operand: exponent. -/
abbrev IR.OPE : Fin 12 := 9
/-- Raw operand: modulus. -/
abbrev IR.OPM : Fin 12 := 10
/-- Result of the last completed operation, as an integer. -/
abbrev IR.RES : Fin 12 := 11

/-- Control register numbers, as in the table of `10_state.md` R33. -/
abbrev CTL.CMD : Fin 65536 := 0
/-- Read only (`10_state.md` R35). -/
abbrev CTL.STATUS : Fin 65536 := 1
/-- Input length (`10_state.md` R38). -/
abbrev CTL.ILEN : Fin 65536 := 2
/-- Output length, read only (`10_state.md` R39). -/
abbrev CTL.OLEN : Fin 65536 := 3
/-- The constant KBYTES, read only (`10_state.md` R37). -/
abbrev CTL.CAP : Fin 65536 := 4

/-- `IR[k]` of an implemented register. -/
def State.reg (s : State) (k : Fin 12) : Nat := s.ir[k.val]'k.isLt

/-- `IR[k] <- v` of an implemented register: each is its own storage (`10_state.md` R24). -/
def State.setReg (s : State) (k : Fin 12) (v : Nat) : State := { s with ir := s.ir.set k.val v k.isLt }

/-- The input sequence `MemRead(IBUF, 0, ILEN)`: "bytes at offsets `ILEN` and above are not part of it"
(`10_state.md` R25). -/
def State.input (s : State) : List Byte := Memory.readBytes s.ibuf 0 s.ilen

/-- The output sequence `MemRead(OBUF, 0, OLEN)` (`10_state.md` R26). -/
def State.output (s : State) : List Byte := Memory.readBytes s.obuf 0 s.olen

/-- The message or ciphertext integer, `OS2IP(MemRead(IBUF, 0, ILEN))` (`20_memory.md` R46). -/
def State.inputValue (s : State) : Nat := os2ip s.input

/-- `W` of this block (`00_scope.md` R7). -/
def State.width (s : State) : Nat := Machine.width s.kbytes

end Sys2Proof.Machine
end

