-- ==== Sys2Proof/Machine/Flags.lean ====
section
/-! DEFINITION. The error codes (`60_exceptions.md` R122) and the status word (`10_state.md` R35, R36). -/

namespace Sys2Proof.Machine

/-- The errors a command can raise (`60_exceptions.md` R122). -/
inductive Err where
  /-- `ENCRYPT`: message integer `m >= N` (R123). -/
  | messageTooLong
  /-- `MODPOW`: `OPM = 0`; `DECRYPT`: `P*Q = 0` or `P*Q >= 2^W` (R124). -/
  | invalidParameters
  /-- A word that is no command (R125). -/
  | illegalCommand
deriving DecidableEq, Repr

/-- The value of `ERRCODE` for an error (`60_exceptions.md` R122). -/
def Err.code : Err → BitVec 4
  | .messageTooLong => 1#4
  | .invalidParameters => 2#4
  | .illegalCommand => 3#4

/-- `BUSY` is not stored: it is `PHASE = RUN` (`10_state.md` R36). -/
def State.busy (s : State) : Bool := decide (s.phase = .run)

/-- `ERR` is not stored: it is `ERRCODE != 0` (`10_state.md` R36). -/
def State.err (s : State) : Bool := s.errcode != 0#4

/-- `STATUS` (`10_state.md` R35): bits 31:8 zero, 7:4 `ERRCODE`, 3 zero, 2 `ERR`, 1 `DONE`, 0 `BUSY`. -/
def State.status (s : State) : Word32 :=
  0#24 ++ s.errcode ++ 0#1 ++ BitVec.ofBool s.err ++ BitVec.ofBool s.done ++ BitVec.ofBool s.busy

end Sys2Proof.Machine
end

