-- ==== Sys2Proof/Machine/Ops.lean ====
section
/-! DEFINITION. The operations the commands, the engine and reset share: the beginning of an acceptance, the setup, the
error completion (what stands for taking an exception, `60_exceptions.md` R127), the delivery of a result, and reset. -/

namespace Sys2Proof.Machine

/-- The first line of every acceptance: `OP <- w;  DONE <- 0;  ERRCODE <- 0` (`43_host_interface.md` R113). -/
def State.beginCommand (s : State) (w : Word32) : State := { s with op := w, done := false, errcode := 0#4 }

/-- Acceptance of the word `w` (`43_host_interface.md` R113) with the checks and setup of its command; a command
written in RUN is ignored: "no state changes" (R114). -/
def State.accept (s : State) (w : Word32) (body : State → State) : State :=
  match s.phase with
  | .idle => body (s.beginCommand w)
  | .run => s

/-- `setup(b, e, m)` (`40_modpow_engine.md` R79), called with `m >= 1` only: `WR <- 1 mod m`, so that the result is
0 for `m = 1` (`90_conflicts.md` C1). -/
def State.setup (s : State) (b e m : Nat) : State := { s with wm := m, wx := e, wb := b % m, wr := 1 % m }

/-- `PHASE <- RUN`, the last line of a successful acceptance (`40_modpow_engine.md` R77). -/
def State.startRun (s : State) : State := { s with phase := .run }

/-- `raise X`, the error completion (`60_exceptions.md` R127), called in IDLE after `State.beginCommand`: `PHASE` stays
IDLE and the working registers stay 0. No pc, mode or saved state is involved: "Control goes nowhere". -/
def State.raise (s : State) (x : Err) : State :=
  { s with errcode := x.code, done := true, ir := s.ir.set IR.RES.val 0 IR.RES.isLt, olen := 0, obuf := [] }

/-- Delivery of the result `v`: `RES`, `OLEN`, the whole of `OBUF` (`40_modpow_engine.md` R82, `20_memory.md` R47). -/
def State.deliver (s : State) (v : Nat) : State :=
  { s with ir := s.ir.set IR.RES.val v IR.RES.isLt, olen := bytelen v, obuf := Memory.ofBytes (i2ospMin v) }

/-- `DONE <- 1; PHASE <- IDLE; WB, WX, WM, WR <- 0`: the end of an operation and the release of its working
registers (`40_modpow_engine.md` R82, `10_state.md` R28). -/
def State.endRun (s : State) : State := { s with done := true, phase := .idle, wb := 0, wx := 0, wm := 0, wr := 0 }

/-- The reset event (`70_reset_and_hazards.md` R142): every piece of state to its value of `10_state.md` R42, in any
phase. KBYTES is a constant of the block, and what the agents do next is not the block's state (log 2). -/
def State.resetEvent (s : State) : State := { State.resetWith s.kbytes with pending := s.pending }

end Sys2Proof.Machine
end

