-- ==== Sys2Proof/Machine/Decrypt.lean ====
section
/-! DEFINITION. The DECRYPT command (`42_decrypt.md` R98 to R103). -/

namespace Sys2Proof.Machine

/-- `decrypt((p, q, d, dp, dq, qinv), s)` for `p*q >= 1` as a pure function (`42_decrypt.md` R98): "the arguments `dp`,
`dq`, `qinv` do not occur on the right-hand side". Not a step of the machine, but what the command is claimed to
compute. -/
def decryptFn (p q d _dp _dq _qinv : Nat) (s : List Byte) : List Byte := i2ospMin (modPow (os2ip s) d (p * q))

/-- The check and setup of DECRYPT (`42_decrypt.md` R99): `INVALID_PARAMETERS` if the product of the factors is zero
or does not fit `W` bits (R100); no check of the ciphertext (R101). -/
def acceptDecrypt (s : State) : State :=
  if s.reg IR.P * s.reg IR.Q = 0 ∨ 2 ^ s.width ≤ s.reg IR.P * s.reg IR.Q then s.raise .invalidParameters
  else (s.setup s.inputValue (s.reg IR.D) (s.reg IR.P * s.reg IR.Q)).startRun

/-- The host writes DECRYPT's word to `CMD`: acceptance in IDLE, nothing in RUN (`43_host_interface.md` R113, R114). -/
def execDecrypt (s : State) : Host.Outcome State Fault Refusal :=
  .next (s.accept (encode .decrypt) acceptDecrypt)

end Sys2Proof.Machine
end

