-- ==== Sys2Proof/Machine/Encrypt.lean ====
section
/-! DEFINITION. The ENCRYPT command (`41_encrypt.md` R93 to R97). -/

namespace Sys2Proof.Machine

/-- `encrypt((n, e), s)` as a pure function (`41_encrypt.md` R93): not a step of the machine, but what the command is
claimed to compute. -/
def encryptFn (n e : Nat) (s : List Byte) : Except Err (List Byte) :=
  if os2ip s < n then .ok (i2ospMin (modPow (os2ip s) e n)) else .error .messageTooLong

/-- The check and setup of ENCRYPT (`41_encrypt.md` R94): `MESSAGE_TOO_LONG` if not `m < N`, and no other check
(R95). -/
def acceptEncrypt (s : State) : State :=
  if s.inputValue < s.reg IR.N then (s.setup s.inputValue (s.reg IR.E) (s.reg IR.N)).startRun
  else s.raise .messageTooLong

/-- The host writes ENCRYPT's word to `CMD`: acceptance in IDLE, nothing in RUN (`43_host_interface.md` R113, R114). -/
def execEncrypt (s : State) : Host.Outcome State Fault Refusal :=
  .next (s.accept (encode .encrypt) acceptEncrypt)

end Sys2Proof.Machine
end

