-- ==== Sys2Proof/Machine/Modpow.lean ====
section
/-! DEFINITION. The MODPOW command (`40_modpow_engine.md` R77 to R79). -/

namespace Sys2Proof.Machine

/-- The checks and setup of MODPOW (`40_modpow_engine.md` R77): `INVALID_PARAMETERS` if `OPM = 0` (R78). -/
def acceptModpow (s : State) : State :=
  if s.reg IR.OPM = 0 then s.raise .invalidParameters
  else (s.setup (s.reg IR.OPB) (s.reg IR.OPE) (s.reg IR.OPM)).startRun

/-- The host writes MODPOW's word to `CMD`: acceptance in IDLE, nothing in RUN (`43_host_interface.md` R113, R114).
The engine's steps then compute (`Machine/Engine.lean`). -/
def execModpow (s : State) : Host.Outcome State Fault Refusal :=
  .next (s.accept (encode .modpow) acceptModpow)

end Sys2Proof.Machine
end

