-- ==== Sys2Proof/Machine/Engine.lean ====
section
/-! DEFINITION. The ENGINE agent (`40_modpow_engine.md` R80 to R82): the same steps for all three commands. -/

namespace Sys2Proof.Machine

/-- The lines of the iteration step, in order (`40_modpow_engine.md` R81): 2a multiplies if `WX[0] = 1` with the `WB`
before the step, 2b shifts, 2c squares, always. -/
def State.iterate (s : State) : State :=
  { s with
    wr := if s.wx % 2 = 1 then s.wr * s.wb % s.wm else s.wr
    wx := s.wx >>> 1
    wb := s.wb * s.wb % s.wm }

/-- The iteration step (`40_modpow_engine.md` R81). With `WM = 0`, which no reachable state in RUN has
(`10_state.md` R44), the remainder is not defined (`00_scope.md` R10): a fault (log 6). -/
def iterationStep (s : State) : Host.Outcome State Fault Refusal :=
  if s.wm = 0 then .fault .moduloZero else .next s.iterate

/-- The finish step (`40_modpow_engine.md` R82): deliver `WR`, end the operation. A result of more than KBYTES bytes,
which no reachable state has (`20_memory.md` R47), has no place in `OBUF`: a fault (log 6). -/
def finishStep (s : State) : Host.Outcome State Fault Refusal :=
  if s.kbytes < bytelen s.wr then .fault .outputOverrun else .next (s.deliver s.wr).endRun

/-- The loop invariant of an operation whose setup received `(b, e, m)` (`40_modpow_engine.md` R83): "`WM = m` and
`(WR * WB^WX) mod m = (b^e) mod m`". No step of the machine evaluates it: what the setup establishes and every
iteration step keeps. -/
def loopInvariant (b e m : Nat) (s : State) : Prop := s.wm = m ∧ s.wr * s.wb ^ s.wx % m = b ^ e % m

/-- The engine's turn (`40_modpow_engine.md` R80): in RUN the iteration step if `WX > 0`, the finish step if `WX = 0`;
"no step in `PHASE = IDLE`", where the turn passes and nothing changes (log 4). -/
def engineStep (s : State) : Host.Outcome State Fault Refusal :=
  match s.phase with
  | .idle => .next s
  | .run => if s.wx > 0 then iterationStep s else finishStep s

end Sys2Proof.Machine
end

