-- ==== Sys2Proof/Machine/Fetch.lean ====
section
/-! DEFINITION. What the next step is. The block fetches no instruction from memory (`10_state.md` R30): a command is
the word of a host's write to `CMD` (`10_state.md` R34), so the fetch reads the head of `pending` (log 2). -/

namespace Sys2Proof.Machine

/-- What the next step does. -/
inductive Fetched where
  /-- A write to `CMD` of a word that decodes to a command. -/
  | command (i : Instr)
  /-- A write to `CMD` of a word that decodes to ILLEGAL. -/
  | illegal (w : Word32)
  /-- Any other host transaction. -/
  | access (t : HostTxn)
  /-- A host transaction outside the ranges of `43_host_interface.md` R104. -/
  | inexpressible
  /-- The engine's turn. -/
  | engine
  /-- Reset. -/
  | reset
deriving DecidableEq, Repr

/-- A host transaction: `WrCtl(0, w)` is a command and is decoded (`43_host_interface.md` R106, R113). -/
def fetchTxn (kbytes : Nat) (t : HostTxn) : Fetched :=
  if t.expressible kbytes then
    match t with
    | .wrCtl r w =>
      if r = CTL.CMD then
        match decode w with
        | .command i => .command i
        | .illegal => .illegal w
      else .access (.wrCtl r w)
    | t => .access t
  else .inexpressible

/-- The head of `pending`; when nothing is pending it is the engine's turn (the weak fairness of
`70_reset_and_hazards.md` R156, log 3). -/
def fetch (s : State) : Fetched :=
  match s.pending with
  | [] => .engine
  | .host t :: _ => fetchTxn s.kbytes t
  | .engine :: _ => .engine
  | .reset :: _ => .reset

/-- The event is taken from `pending`, and nothing has been returned to the host yet. -/
def State.advance (s : State) : State := { s with pending := s.pending.tail, reply := none }

end Sys2Proof.Machine
end

