-- ==== Sys2Proof/Machine/HostPort.lean ====
section
/-! DEFINITION. The host's transactions other than a command (`43_host_interface.md` R104 to R112), and the acceptance
of a word that is no command (R113, `60_exceptions.md` R125). -/

namespace Sys2Proof.Machine

/-- The value `RdCtl(r)` returns (`43_host_interface.md` R105). -/
def readCtl (s : State) (r : Fin 65536) : Word32 :=
  if r = CTL.CMD then s.op
  else if r = CTL.STATUS then s.status
  else if r = CTL.ILEN then BitVec.ofNat 32 s.ilen
  else if r = CTL.OLEN then BitVec.ofNat 32 s.olen
  else if r = CTL.CAP then BitVec.ofNat 32 s.kbytes
  else 0#32

/-- `WrCtl(r, v)` for `r` other than `CMD` (`43_host_interface.md` R106): `ILEN` takes a legal length and ignores any
other (`10_state.md` R38); read-only and reserved registers ignore the write. A write of `CMD` is a command and is
fetched as one (`Machine/Fetch.lean`). -/
def writeCtl (s : State) (r : Fin 65536) (v : Word32) : State :=
  if r = CTL.ILEN then (if v.toNat ≤ s.kbytes then { s with ilen := v.toNat } else s)
  else s

/-- The value `RdIR(k)` returns: the register, and 0 for the reserved 12 to 15 (`43_host_interface.md` R108). -/
def readIR (s : State) (k : Fin 16) : Nat :=
  if h : k.val < 12 then s.reg ⟨k.val, h⟩ else 0

/-- `WrIR(k, v)`: the registers 0 to 10; `RES` and the reserved 12 to 15 ignore the write
(`43_host_interface.md` R107). -/
def writeIR (s : State) (k : Fin 16) (v : Nat) : State :=
  if h : k.val < 11 then s.setReg ⟨k.val, Nat.lt_succ_of_lt h⟩ v else s

/-- The byte `RdIBUF(i)` or `RdOBUF(i)` returns: 0 at offsets KBYTES and above (`43_host_interface.md` R110, R111). -/
def readBuffer (s : State) (m : Memory) (i : Fin 65536) : Byte :=
  if i.val < s.kbytes then Memory.read m i.val else 0#8

/-- `WrIBUF(i, b)`: ignored at offsets KBYTES and above; `ILEN` is not changed (`43_host_interface.md` R109). -/
def writeIBUF (s : State) (i : Fin 65536) (b : Byte) : State :=
  if i.val < s.kbytes then { s with ibuf := Memory.write s.ibuf i.val b } else s

/-- A host transaction that is not a command (`43_host_interface.md` R104), in either phase. -/
def hostAccess (t : HostTxn) (s : State) : State :=
  match t with
  | .rdCtl r => { s with reply := some (.ctl (readCtl s r)) }
  | .wrCtl r v => writeCtl s r v
  | .wrIR k v => writeIR s k v
  | .rdIR k => { s with reply := some (.int (readIR s k)) }
  | .wrIBUF i b => writeIBUF s i b
  | .rdIBUF i => { s with reply := some (.byte (readBuffer s s.ibuf i)) }
  | .rdOBUF i => { s with reply := some (.byte (readBuffer s s.obuf i)) }

/-- The acceptance of an illegal word (`43_host_interface.md` R113, `60_exceptions.md` R125): `OP` keeps the word and
`ILLEGAL_COMMAND` is raised; in RUN it is ignored (`30_encoding.md` R66). -/
def acceptIllegal (w : Word32) (s : State) : State :=
  s.accept w fun s => s.raise .illegalCommand

end Sys2Proof.Machine
end

