-- ==== Sys2Proof/Machine/Step.lean ====
section
/-! DEFINITION. One atomic step of the machine (`00_scope.md` R9, `20_memory.md` R58). -/

namespace Sys2Proof.Machine

/-- One transition: a host transaction, an engine step or reset, as `fetch` says. -/
def step (s : State) : Host.Outcome State Fault Refusal :=
  match fetch s with
  | .command i => exec i s.advance
  | .illegal w => .next (acceptIllegal w s.advance)
  | .access t => .next (hostAccess t s.advance)
  | .inexpressible => .refused .valueTooWide
  | .engine => engineStep s.advance
  | .reset => .next s.advance.resetEvent

/-- `s` with the command word `w` written to `CMD` as the very next event (log 8). A command is one 32-bit word
(`30_encoding.md` R63); nothing but `pending` is touched. -/
def State.withFetchWord (s : State) (nbits w : Nat) : State :=
  { s with pending := .host (.wrCtl CTL.CMD (BitVec.ofNat 32 (w % 2 ^ nbits))) :: s.pending }

end Sys2Proof.Machine
end

