-- ==== Sys2Proof/Machine/HostScript.lean ====
section
/-! DEFINITION. The host-script notation (`30_encoding.md` R70, R71): each line as the transactions it stands for. -/

namespace Sys2Proof.Machine

/-- A line of a host script. `WAIT` and `UNLOAD` depend on what the host has read, so the line carries it: how many
reads of `STATUS` the wait makes, and the length that `RDC OLEN` returned (log 11). -/
inductive ScriptLine where
  /-- `WRI`, `RDI`, `WRB`, `RDB`, `RDIB`, `WRC`, `RDC`: one transaction each (R70). -/
  | txn (t : HostTxn)
  /-- `CMD x` (R71). -/
  | cmd (i : Instr)
  /-- `LOAD {b0, ..., b(n-1)}` (R71). -/
  | load (bytes : List Byte)
  /-- `WAIT`, in an execution in which it makes `reads` reads of `STATUS` (R71). -/
  | wait (reads : Nat)
  /-- `UNLOAD`, where `RDC OLEN` returns `n` (R71). -/
  | unload (n : Nat)
deriving DecidableEq, Repr

/-- `WRB off, b0; WRB off+1, b1; ...`: the byte writes of a `LOAD` (`30_encoding.md` R71). -/
def loadBytes : Nat → List Byte → List HostTxn
  | _, [] => []
  | off, b :: bs => .wrIBUF (Fin.ofNat 65536 off) b :: loadBytes (off + 1) bs

/-- The expansion of a line (`30_encoding.md` R70, R71). Offsets and lengths are those of a sequence that fits a
buffer, so they are below `2^16`. -/
def ScriptLine.expand : ScriptLine → List HostTxn
  | .txn t => [t]
  | .cmd i => [.wrCtl CTL.CMD (encode i)]
  | .load bytes => loadBytes 0 bytes ++ [.wrCtl CTL.ILEN (BitVec.ofNat 32 bytes.length)]
  | .wait reads => List.replicate reads (.rdCtl CTL.STATUS)
  | .unload n => .rdCtl CTL.OLEN :: (List.range n).map fun i => .rdOBUF (Fin.ofNat 65536 i)

/-- `WAIT` repeats "until the value read has bit 1 (`DONE`) set" (`30_encoding.md` R71). -/
def waitEnds (v : Word32) : Bool := v.getLsbD 1

/-- A script as events of the HOST, in order; engine turns interleave anywhere between them (`30_encoding.md` R70). -/
def scriptEvents (lines : List ScriptLine) : List Event := lines.flatMap fun l => l.expand.map .host

end Sys2Proof.Machine
end

