-- ==== Sys2Proof/Machine/Instances.lean ====
section
/-! DEFINITION. Several blocks (`60_exceptions.md` R137): "they share no state whatsoever and need no coordination";
"A model of several instances is the product of independent copies of the one-block model." -/

namespace Sys2Proof.Machine

/-- Several blocks side by side, each with its own state and its own `CMD`. -/
abbrev Instances := List State

/-- Block `k` takes one step and no other block changes; where there is no block `k`, nothing changes. -/
def stepInstance (k : Nat) (bs : Instances) : Host.Outcome Instances Fault Refusal :=
  match bs[k]? with
  | none => .next bs
  | some s =>
    match step s with
    | .next s' => .next (bs.set k s')
    | .fault r => .fault r
    | .refused r => .refused r

end Sys2Proof.Machine
end

