-- ==== Sys2Proof/Safety.lean ====
section
/-! DEFINITION. What claims are stated in: the invariants of `10_state.md` R44 with the ranges of R43, and the events
that a claim speaks of. -/

namespace Sys2Proof

open Machine

/-- The invariant of the reachable states: the ranges of `10_state.md` R43, the buffers' canonical form, and the
clauses (a) to (g) of `10_state.md` R44. -/
structure Inv (s : State) : Prop where
  /-- `1 <= KBYTES <= 65535` (`00_scope.md` R7). -/
  kbytes_range : Config.minKbytes ≤ s.kbytes ∧ s.kbytes ≤ Config.maxKbytes
  /-- "twelve integers `IR[0..11]` (each below `2^W`)" (R43). -/
  reg_lt : ∀ k, s.reg k < 2 ^ s.width
  /-- "four working integers ... (each below `2^W`)" (R43); `WB` and `WR` are below `WM`, or 0. -/
  working_lt : s.wb < 2 ^ s.width ∧ s.wx < 2 ^ s.width ∧ s.wm < 2 ^ s.width ∧ s.wr < 2 ^ s.width
  /-- `IBUF` is an array of KBYTES bytes (R43), in canonical form. -/
  ibuf_ok : Memory.wf s.ibuf = true ∧ Memory.below s.kbytes s.ibuf = true
  /-- `OBUF` is an array of KBYTES bytes (R43), in canonical form. -/
  obuf_ok : Memory.wf s.obuf = true ∧ Memory.below s.kbytes s.obuf = true
  /-- R44 (a). -/
  idle_clear : s.phase = .idle → s.wb = 0 ∧ s.wx = 0 ∧ s.wm = 0 ∧ s.wr = 0
  /-- R44 (b). -/
  run_ok : s.phase = .run → 1 ≤ s.wm ∧ s.wb < s.wm ∧ s.wr < s.wm ∧ s.done = false ∧ s.errcode = 0#4 ∧
    ∃ i, s.op = encode i
  /-- R44 (c). -/
  output_ok : s.olen = bytelen (s.reg IR.RES) ∧ s.output = i2ospMin (s.reg IR.RES) ∧
    (∀ i, s.olen ≤ i → Memory.read s.obuf i = 0#8) ∧ s.reg IR.RES = os2ip s.output
  /-- R44 (d). -/
  lengths : s.ilen ≤ s.kbytes ∧ s.olen ≤ s.kbytes
  /-- R44 (e). -/
  error_ok : s.errcode ≠ 0#4 → s.done = true ∧ s.phase = .idle ∧ s.reg IR.RES = 0 ∧ s.olen = 0
  /-- R44 (f). -/
  done_idle : s.done = true → s.phase = .idle
  /-- R44 (g). -/
  errcode_le : s.errcode.toNat ≤ 3

/-- Everything the outside world will do can be expressed (`43_host_interface.md` R104). -/
def pendingWellFormed (s : State) : Prop := ∀ e ∈ s.pending, e.wellFormed s.kbytes = true

/-- A run of `n` steps that does not stop. -/
def runs (n : Nat) (s t : State) : Prop := core.run n s = .next t

/-- The block with nothing pending and nothing just returned: the engine is left to itself. -/
def Machine.State.alone (s : State) : State := { s with pending := [], reply := none }

/-- The host writes the word `w` to `CMD` (`10_state.md` R34). -/
def commandEvent (w : Word32) : Event := .host (.wrCtl CTL.CMD w)

/-- What every transition leaves alone unless it is named for it: the inputs of the block (`10_state.md` R19, R21, R25)
and what is no state of the block. -/
def SameInputs (s t : State) : Prop :=
  (∀ k, k ≠ IR.RES → t.reg k = s.reg k) ∧ (∀ a, Memory.read t.ibuf a = Memory.read s.ibuf a) ∧ t.ilen = s.ilen ∧
    t.kbytes = s.kbytes ∧ t.pending = s.pending ∧ t.reply = s.reply

/-- The outputs of the block: `RES`, `OBUF`, `OLEN` (`30_encoding.md` R65). -/
def SameOutputs (s t : State) : Prop :=
  t.reg IR.RES = s.reg IR.RES ∧ (∀ a, Memory.read t.obuf a = Memory.read s.obuf a) ∧ t.olen = s.olen

/-- `t` is `s` after an acceptance that reaches `setup(b, e, m)` (`43_host_interface.md` R113, `40_modpow_engine.md`
R79): the operation runs, inputs and outputs are as before. -/
def Accepted (w : Word32) (b e m : Nat) (s t : State) : Prop :=
  t.op = w ∧ t.done = false ∧ t.errcode = 0#4 ∧ t.phase = .run ∧
    t.wm = m ∧ t.wx = e ∧ t.wb = b % m ∧ t.wr = 1 % m ∧ SameInputs s t ∧ SameOutputs s t

/-- `t` is `s` after an acceptance that raises `x` (`43_host_interface.md` R113, `60_exceptions.md` R127): outputs
cleared, working registers and inputs as before. -/
def ErrorCompletion (w : Word32) (x : Err) (s t : State) : Prop :=
  t.op = w ∧ t.done = true ∧ t.errcode = x.code ∧ t.phase = .idle ∧
    t.reg IR.RES = 0 ∧ t.olen = 0 ∧ (∀ a, Memory.read t.obuf a = 0#8) ∧
    t.wb = s.wb ∧ t.wx = s.wx ∧ t.wm = s.wm ∧ t.wr = s.wr ∧ SameInputs s t

/-- `t` is `s` after a finish step that delivers `v` (`40_modpow_engine.md` R82). -/
def Finished (v : Nat) (s t : State) : Prop :=
  t.reg IR.RES = v ∧ t.olen = bytelen v ∧
    (∀ i, i < bytelen v → (Memory.read t.obuf i).toNat = (v >>> (8 * (bytelen v - 1 - i))) % 256) ∧
    (∀ i, bytelen v ≤ i → Memory.read t.obuf i = 0#8) ∧
    t.done = true ∧ t.phase = .idle ∧ t.wb = 0 ∧ t.wx = 0 ∧ t.wm = 0 ∧ t.wr = 0 ∧
    t.errcode = s.errcode ∧ t.op = s.op

/-- The arguments `(b, e, m)` of the setup that a command's acceptance reaches, or the error it raises
(`40_modpow_engine.md` R77, `41_encrypt.md` R94, `42_decrypt.md` R99): the reading of the three rules side by side that
a claim about every command is stated in. -/
def commandArgs (i : Instr) (s : State) : Except Err (Nat × Nat × Nat) :=
  match i with
  | .modpow =>
    if s.reg IR.OPM = 0 then .error .invalidParameters
    else .ok (s.reg IR.OPB, s.reg IR.OPE, s.reg IR.OPM)
  | .encrypt =>
    if s.reg IR.N ≤ s.inputValue then .error .messageTooLong
    else .ok (s.inputValue, s.reg IR.E, s.reg IR.N)
  | .decrypt =>
    if 1 ≤ s.reg IR.P * s.reg IR.Q ∧ s.reg IR.P * s.reg IR.Q < 2 ^ s.width then
      .ok (s.inputValue, s.reg IR.D, s.reg IR.P * s.reg IR.Q)
    else .error .invalidParameters

end Sys2Proof
end

