-- ==== Sys2Proof/Certificates/Slice0/Obligations.lean ====
section
/-! DEFINITION. The statements for the provers. `s` is any state, reached or not, unless an invariant is a premise.
"Turn" is the engine's turn: nothing pending, or an engine slot at the head of `pending` (log 2, log 3). -/

open Sys2Proof Sys2Proof.Machine

/-! ## Encoding -/

/-- `30_encoding.md` R74, R66: some words written out. -/
def Obligations.DecodeWrittenOutWords : Prop :=
  decode 0b00000000000000000000000000000001#32 = .command .modpow ∧
  decode 0b00000000000000000000000000000010#32 = .command .encrypt ∧
  decode 0b00000000000000000000000000000011#32 = .command .decrypt ∧
  decode 0x00000000#32 = .illegal ∧ decode 0x00000004#32 = .illegal ∧
  decode 0x00000101#32 = .illegal ∧ decode 0x80000001#32 = .illegal

/-- `30_encoding.md` R64: "A word `w` selects a command when `w AND mask = match`, that is when `w` equals the word
value." -/
def Obligations.DecodeSelectsByMaskAndMatch : Prop :=
  ∀ (w : Word32) (i : Instr),
    (decode w = .command i ↔ ∃ row ∈ opcodeTable, row.instr = i ∧ w &&& row.mask = row.matchBits) ∧
    (decode w = .command i ↔
      w = match i with | .modpow => 0x00000001#32 | .encrypt => 0x00000002#32 | .decrypt => 0x00000003#32)

/-- Decode and encode agree in both directions, and every word that is no command's word is ILLEGAL
(`30_encoding.md` R66, R74). -/
def Obligations.DecodeEncodeAgree : Prop :=
  ∀ (w : Word32),
    (∀ i : Instr, i.wellFormed = true → decode (encode i) = .command i) ∧
    (∀ i : Instr, decode w = .command i → encode i = w) ∧
    (decode w = .illegal ↔ ∀ i : Instr, encode i ≠ w) ∧
    (∀ i : Instr, decodeTableWord 32 w.toNat = some i ↔ decode w = .command i)

/-! ## One step -/

/-- A write to `CMD` of a word that decodes to a command is that command, on the state with the event taken. -/
def Obligations.StepRunsDecodedCommand : Prop :=
  ∀ (s : State) (w : Word32) (i : Instr) (rest : List Event),
    s.pending = .host (.wrCtl CTL.CMD w) :: rest → decode w = .command i →
      step s = exec i { s with pending := rest, reply := none }

/-- The host's placement of an instruction (log 8): the very next step is that instruction, and nothing is lost of what
was pending. -/
def Obligations.StepRunsPlacedCommand : Prop :=
  ∀ (s : State) (i : Instr),
    step (s.withFetchWord 32 (encode i).toNat) = exec i { s with reply := none }

/-- `30_encoding.md` R66, `60_exceptions.md` R125: an illegal word written in IDLE completes with `ILLEGAL_COMMAND`,
`OP` holding the word; in RUN it is ignored. -/
def Obligations.IllegalWordCompletesWithError : Prop :=
  ∀ (s : State) (w : Word32) (rest : List Event),
    s.pending = .host (.wrCtl CTL.CMD w) :: rest →
    w ≠ 0x00000001#32 → w ≠ 0x00000002#32 → w ≠ 0x00000003#32 →
      (s.phase = .idle → ∃ t, step s = .next t ∧
        ErrorCompletion w .illegalCommand { s with pending := rest, reply := none } t ∧
        t.errcode = 3#4 ∧ t.status = 0x00000036#32) ∧
      (s.phase = .run → step s = .next { s with pending := rest, reply := none })

/-- `43_host_interface.md` R114: a command written in RUN changes nothing and is not recorded. -/
def Obligations.CommandWhileRunningIsIgnored : Prop :=
  ∀ (s : State), s.phase = .run →
    (∀ i : Instr, exec i s = .next s) ∧
    (∀ (w : Word32) (rest : List Event), s.pending = .host (.wrCtl CTL.CMD w) :: rest →
      step s = .next { s with pending := rest, reply := none })

/-! ## Acceptance of the commands: every one answers a next state -/

/-- MODPOW in IDLE (`40_modpow_engine.md` R77 to R79): the setup with `OPB`, `OPE`, `OPM`, or `INVALID_PARAMETERS`. -/
def Obligations.ModpowAcceptance : Prop :=
  ∀ (s : State), s.phase = .idle →
    (s.reg IR.OPM ≠ 0 → ∃ t, exec .modpow s = .next t ∧
      Accepted 0x00000001#32 (s.reg IR.OPB) (s.reg IR.OPE) (s.reg IR.OPM) s t ∧ t.wb < t.wm ∧ t.wr < t.wm ∧
      t.status = 0x00000001#32) ∧
    (s.reg IR.OPM = 0 → ∃ t, exec .modpow s = .next t ∧
      ErrorCompletion 0x00000001#32 .invalidParameters s t ∧ t.errcode = 2#4 ∧ t.status = 0x00000026#32)

/-- ENCRYPT in IDLE (`41_encrypt.md` R94, R95): the setup with the message integer, `E`, `N`, or `MESSAGE_TOO_LONG`. -/
def Obligations.EncryptAcceptance : Prop :=
  ∀ (s : State), s.phase = .idle →
    (s.inputValue < s.reg IR.N → ∃ t, exec .encrypt s = .next t ∧
      Accepted 0x00000002#32 s.inputValue (s.reg IR.E) (s.reg IR.N) s t ∧ t.wb = s.inputValue ∧ t.wr < t.wm ∧
      t.status = 0x00000001#32) ∧
    (s.reg IR.N ≤ s.inputValue → ∃ t, exec .encrypt s = .next t ∧
      ErrorCompletion 0x00000002#32 .messageTooLong s t ∧ t.errcode = 1#4 ∧ t.status = 0x00000016#32)

/-- DECRYPT in IDLE (`42_decrypt.md` R99, R100): the setup with the ciphertext integer, `D`, `P*Q`, or
`INVALID_PARAMETERS`. -/
def Obligations.DecryptAcceptance : Prop :=
  ∀ (s : State), s.phase = .idle →
    (s.reg IR.P * s.reg IR.Q ≠ 0 → s.reg IR.P * s.reg IR.Q < 2 ^ s.width → ∃ t, exec .decrypt s = .next t ∧
      Accepted 0x00000003#32 s.inputValue (s.reg IR.D) (s.reg IR.P * s.reg IR.Q) s t ∧ t.wb < t.wm ∧ t.wr < t.wm ∧
      t.status = 0x00000001#32) ∧
    (s.reg IR.P * s.reg IR.Q = 0 ∨ 2 ^ s.width ≤ s.reg IR.P * s.reg IR.Q → ∃ t, exec .decrypt s = .next t ∧
      ErrorCompletion 0x00000003#32 .invalidParameters s t ∧ t.errcode = 2#4 ∧ t.status = 0x00000026#32)

/-- The frame of the commands: inputs are never changed; in RUN nothing is; in IDLE the outputs change only with an
error, which leaves the working registers alone (`40_modpow_engine.md` R89, `30_encoding.md` R65). -/
def Obligations.CommandFrame : Prop :=
  ∀ (i : Instr) (s t : State), exec i s = .next t →
    SameInputs s t ∧
    (s.phase = .run → t = s) ∧
    (s.phase = .idle → t.errcode = 0#4 → SameOutputs s t ∧ t.phase = .run ∧ t.done = false) ∧
    (s.phase = .idle → t.errcode ≠ 0#4 →
      t.wb = s.wb ∧ t.wx = s.wx ∧ t.wm = s.wm ∧ t.wr = s.wr ∧ t.phase = .idle ∧ t.done = true)

/-- `60_exceptions.md` R122: which command raises which error, and that `ERRCODE` changes at an acceptance (and, to
0, at reset) and nowhere else. -/
def Obligations.ErrorsOnlyAtAcceptance : Prop :=
  (∀ (s : State) (w : Word32) (rest : List Event),
    s.pending = .host (.wrCtl CTL.CMD w) :: rest → s.phase = .idle →
      ∃ t, step s = .next t ∧ t.errcode =
        if w = 0x00000001#32 then (if s.reg IR.OPM = 0 then 2#4 else 0#4)
        else if w = 0x00000002#32 then (if s.inputValue ≥ s.reg IR.N then 1#4 else 0#4)
        else if w = 0x00000003#32 then
          (if s.reg IR.P * s.reg IR.Q = 0 ∨ s.reg IR.P * s.reg IR.Q ≥ 2 ^ s.width then 2#4 else 0#4)
        else 3#4) ∧
  (∀ (s t : State), step s = .next t → t.errcode ≠ s.errcode →
    (s.phase = .idle ∧ ∃ w rest, s.pending = .host (.wrCtl CTL.CMD w) :: rest) ∨
    (∃ rest, s.pending = .reset :: rest ∧ t.errcode = 0#4))

/-! ## The engine -/

/-- `40_modpow_engine.md` R81: the iteration step. -/
def Obligations.IterationStep : Prop :=
  ∀ (s : State), (s.pending = [] ∨ ∃ rest, s.pending = .engine :: rest) →
    s.phase = .run → 0 < s.wx → 1 ≤ s.wm →
      ∃ t, step s = .next t ∧
        t = { s with pending := s.pending.tail, reply := none, wr := t.wr, wx := t.wx, wb := t.wb } ∧
        (s.wx % 2 = 1 → t.wr = (s.wr * s.wb) % s.wm) ∧ (s.wx % 2 = 0 → t.wr = s.wr) ∧
        t.wx = s.wx / 2 ∧ t.wb = (s.wb * s.wb) % s.wm ∧
        t.wb < t.wm ∧ (s.wr < s.wm → t.wr < t.wm)

/-- `40_modpow_engine.md` R82, `20_memory.md` R47: the finish step. -/
def Obligations.FinishStep : Prop :=
  ∀ (s : State), (s.pending = [] ∨ ∃ rest, s.pending = .engine :: rest) →
    s.phase = .run → s.wx = 0 → s.wr < 2 ^ s.width →
      ∃ t, step s = .next t ∧ Finished s.wr s t ∧
        SameInputs { s with pending := s.pending.tail, reply := none } t ∧ t.olen ≤ t.kbytes

/-- `40_modpow_engine.md` R80: in RUN an iteration if `WX > 0`, the finish if `WX = 0`; no engine step looks at `OP`.
The spec gives the engine no step in IDLE; that its turn there answers a state with only the event taken is the
model's choice (log 4). -/
def Obligations.EngineStepSelection : Prop :=
  ∀ (s : State), (s.pending = [] ∨ ∃ rest, s.pending = .engine :: rest) →
    (s.phase = .idle → step s = .next { s with pending := s.pending.tail, reply := none }) ∧
    (∀ t, s.phase = .run → step s = .next t →
      (0 < s.wx → t.phase = .run ∧ t.wx = s.wx / 2 ∧ t.wm = s.wm) ∧
      (s.wx = 0 → t.phase = .idle ∧ t.done = true ∧ t.reg IR.RES = s.wr)) ∧
    (∀ (t : State) (w : Word32), step s = .next t → step { s with op := w } = .next { t with op := w })

/-- The engine's frame (`40_modpow_engine.md` R89): no turn changes a key or operand register, `IBUF`, `ILEN`, `OP`
or `ERRCODE`, and an iteration changes no output either. -/
def Obligations.EngineFrame : Prop :=
  ∀ (s t : State), (s.pending = [] ∨ ∃ rest, s.pending = .engine :: rest) → step s = .next t →
    SameInputs { s with pending := s.pending.tail, reply := none } t ∧ t.op = s.op ∧ t.errcode = s.errcode ∧
    (t.phase = s.phase → SameOutputs s t ∧ t.done = s.done)

/-- `40_modpow_engine.md` R83: after the setup with `(b, e, m)` and after every iteration step, `WM = m` and
`(WR * WB^WX) mod m = (b^e) mod m`. -/
def Obligations.LoopInvariant : Prop :=
  ∀ (i : Instr) (s t : State) (b e m n : Nat),
    s.phase = .idle → commandArgs i s = .ok (b, e, m) → exec i s = .next t → n ≤ bitlen e →
      ∃ u, runs n t.alone u ∧ u.phase = .run ∧ loopInvariant b e m u

/-- `40_modpow_engine.md` R88, `60_exceptions.md` R141: from any state in RUN that meets the invariant, exactly
`bitlen(WX)` iterations, then one finish: never earlier, never later. -/
def Obligations.StepsToIdle : Prop :=
  ∀ (s : State), Inv s → s.phase = .run → s.pending = [] →
    (∀ n, n ≤ bitlen s.wx → ∃ t, runs n s t ∧ t.phase = .run ∧ t.done = false ∧ t.wx = s.wx / 2 ^ n) ∧
    (∃ t, runs (bitlen s.wx + 1) s t ∧ t.phase = .idle ∧ t.done = true)

/-- `40_modpow_engine.md` R85: modulus 1 gives 0 for every base and exponent, after `bitlen(exponent)` iterations. -/
def Obligations.ModulusOneGivesZero : Prop :=
  ∀ (s t : State), s.phase = .idle → s.reg IR.OPM = 1 → exec .modpow s = .next t →
    (∀ n, n ≤ bitlen (s.reg IR.OPE) →
      ∃ u, runs n t.alone u ∧ u.phase = .run ∧ u.wb = 0 ∧ u.wr = 0) ∧
    (∃ u, runs (bitlen (s.reg IR.OPE) + 1) t.alone u ∧ u.phase = .idle ∧
      u.reg IR.RES = 0 ∧ u.olen = 0 ∧ u.status = 0x00000002#32)

/-- `40_modpow_engine.md` R86: with exponent 0 the first turn is the finish; the result is `1 mod modulus`. -/
def Obligations.ExponentZeroFinishesAtOnce : Prop :=
  ∀ (s t : State), Inv s → s.phase = .idle → s.reg IR.OPE = 0 → s.reg IR.OPM ≠ 0 → exec .modpow s = .next t →
    ∃ u, runs 1 t.alone u ∧ u.phase = .idle ∧ u.status = 0x00000002#32 ∧
      (1 < s.reg IR.OPM → u.reg IR.RES = 1 ∧ u.output = [0x01#8]) ∧
      (s.reg IR.OPM = 1 → u.reg IR.RES = 0 ∧ u.output = [])

/-! ## What a whole command computes -/

/-- `40_modpow_engine.md` R77, R78, R84: MODPOW from its command write to its completion, the engine left to itself. -/
def Obligations.ModpowComputesModPow : Prop :=
  ∀ (s : State), s.phase = .idle → s.reg IR.OPM < 2 ^ s.width →
    (s.reg IR.OPM ≠ 0 → ∃ t u, exec .modpow s = .next t ∧
      Accepted 0x00000001#32 (s.reg IR.OPB) (s.reg IR.OPE) (s.reg IR.OPM) s t ∧
      runs (bitlen (s.reg IR.OPE) + 1) t.alone u ∧
      Finished (modPow (s.reg IR.OPB) (s.reg IR.OPE) (s.reg IR.OPM)) t u ∧
      SameInputs s.alone u ∧ u.status = 0x00000002#32 ∧
      u.output = i2ospMin (u.reg IR.RES)) ∧
    (s.reg IR.OPM = 0 → ∃ t, exec .modpow s = .next t ∧ ErrorCompletion 0x00000001#32 .invalidParameters s t)

/-- `41_encrypt.md` R93, R94, R95: ENCRYPT computes the source's `encrypt` of the key and the input bytes. -/
def Obligations.EncryptComputesEncrypt : Prop :=
  ∀ (s : State), s.phase = .idle → s.reg IR.N < 2 ^ s.width →
    (∀ c, encryptFn (s.reg IR.N) (s.reg IR.E) s.input = .ok c → ∃ t u, exec .encrypt s = .next t ∧
      Accepted 0x00000002#32 s.inputValue (s.reg IR.E) (s.reg IR.N) s t ∧ t.wb = s.inputValue ∧
      runs (bitlen (s.reg IR.E) + 1) t.alone u ∧
      Finished (modPow s.inputValue (s.reg IR.E) (s.reg IR.N)) t u ∧ u.output = c ∧
      SameInputs s.alone u ∧ u.status = 0x00000002#32) ∧
    (∀ x, encryptFn (s.reg IR.N) (s.reg IR.E) s.input = .error x → x = .messageTooLong ∧
      ∃ t, exec .encrypt s = .next t ∧ ErrorCompletion 0x00000002#32 x s t)

/-- `42_decrypt.md` R98, R99, R100: DECRYPT computes the source's `decrypt` of the key and the input bytes. -/
def Obligations.DecryptComputesDecrypt : Prop :=
  ∀ (s : State), s.phase = .idle →
    (1 ≤ s.reg IR.P * s.reg IR.Q → s.reg IR.P * s.reg IR.Q < 2 ^ s.width →
      ∃ t u, exec .decrypt s = .next t ∧
        Accepted 0x00000003#32 s.inputValue (s.reg IR.D) (s.reg IR.P * s.reg IR.Q) s t ∧
        runs (bitlen (s.reg IR.D) + 1) t.alone u ∧
        Finished (modPow s.inputValue (s.reg IR.D) (s.reg IR.P * s.reg IR.Q)) t u ∧
        u.output = decryptFn (s.reg IR.P) (s.reg IR.Q) (s.reg IR.D) (s.reg IR.DP) (s.reg IR.DQ) (s.reg IR.QINV)
          s.input ∧
        SameInputs s.alone u ∧ u.status = 0x00000002#32) ∧
    (s.reg IR.P * s.reg IR.Q = 0 ∨ 2 ^ s.width ≤ s.reg IR.P * s.reg IR.Q →
      ∃ t, exec .decrypt s = .next t ∧ ErrorCompletion 0x00000003#32 .invalidParameters s t)

/-- `40_modpow_engine.md` R84, R88: every command whose acceptance reaches the setup with `(b, e, m)` completes after
exactly `bitlen(e)` iteration steps and one finish step, with `RES = (b^e) mod m`. -/
def Obligations.OperationStepCountAndResult : Prop :=
  ∀ (i : Instr) (s : State) (b e m : Nat), s.phase = .idle → commandArgs i s = .ok (b, e, m) → m < 2 ^ s.width →
    ∃ t, exec i s = .next t ∧
      (∀ n, n ≤ bitlen e → ∃ u, runs n t.alone u ∧ u.phase = .run ∧ u.done = false ∧ u.wx = e / 2 ^ n) ∧
      (∃ u, runs (bitlen e + 1) t.alone u ∧ u.phase = .idle ∧ u.done = true ∧ u.errcode = 0#4 ∧
        u.reg IR.RES = modPow b e m)

/-- `40_modpow_engine.md` R84, R90, `43_host_interface.md` R115: whatever the host does meanwhile (anything but reset)
and wherever the engine's turns fall, the command completes with the result of the operands at its acceptance. -/
def Obligations.ResultInEveryInterleaving : Prop :=
  ∀ (s : State) (i : Instr) (b e m : Nat) (es rest : List Event),
    s.phase = .idle → commandArgs i s = .ok (b, e, m) → m < 2 ^ s.width →
    s.pending = .host (.wrCtl CTL.CMD (encode i)) :: (es ++ .engine :: rest) →
    Event.reset ∉ es → (∀ x ∈ es, x.wellFormed s.kbytes = true) → es.count .engine = bitlen e →
      ∃ t, runs (es.length + 2) s t ∧ t.reg IR.RES = modPow b e m ∧ t.output = i2ospMin (modPow b e m) ∧
        t.olen = bytelen (modPow b e m) ∧ t.status = 0x00000002#32 ∧ t.op = encode i ∧ t.pending = rest

/-- `42_decrypt.md` R103 (the source's testable property; that it is a theorem of RSA is general knowledge, G1 of
`93_implementation_defined.md`): ENCRYPT, the host's copy of the output to the input, DECRYPT: the message integer is
back. -/
def Obligations.RsaRoundTrip : Prop :=
  ∀ (s : State), Inv s → s.phase = .idle → (s.reg IR.P).Prime → (s.reg IR.Q).Prime → s.reg IR.P ≠ s.reg IR.Q →
    s.reg IR.N = s.reg IR.P * s.reg IR.Q →
    s.reg IR.E * s.reg IR.D ≡ 1 [MOD Nat.lcm (s.reg IR.P - 1) (s.reg IR.Q - 1)] →
    s.inputValue < s.reg IR.N → s.pending = [.host (.wrCtl CTL.CMD (encode .encrypt))] →
      ∃ t u, runs (bitlen (s.reg IR.E) + 2) s t ∧ t.phase = .idle ∧
        runs (t.olen + 2 + (bitlen (s.reg IR.D) + 1))
          { t with pending := scriptEvents [.load t.output, .cmd .decrypt] } u ∧
        u.reg IR.RES = s.inputValue ∧ u.status = 0x00000002#32

/-! ## The host's transactions -/

/-- `43_host_interface.md` R105: `RdCtl(r)`. -/
def Obligations.RdCtlReturns : Prop :=
  ∀ (s : State) (r : Fin 65536) (rest : List Event), s.pending = .host (.rdCtl r) :: rest →
    ∃ v : Word32, step s = .next { s with pending := rest, reply := some (.ctl v) } ∧
      (r.val = 0 → v = s.op) ∧
      (r.val = 1 → v.toNat = (if s.phase = .run then 1 else 0) + 2 * (if s.done = true then 1 else 0) +
        4 * (if s.errcode = 0#4 then 0 else 1) + 16 * s.errcode.toNat) ∧
      (r.val = 2 → v = BitVec.ofNat 32 s.ilen) ∧ (r.val = 3 → v = BitVec.ofNat 32 s.olen) ∧
      (r.val = 4 → v = BitVec.ofNat 32 s.kbytes) ∧ (5 ≤ r.val → v = 0#32)

/-- `10_state.md` R35: the fields of `STATUS`, bit by bit. -/
def Obligations.StatusFields : Prop :=
  ∀ (s : State),
    (s.status.getLsbD 0 = true ↔ s.phase = .run) ∧ (s.status.getLsbD 1 = true ↔ s.done = true) ∧
    (s.status.getLsbD 2 = true ↔ s.errcode ≠ 0#4) ∧ s.status.getLsbD 3 = false ∧
    s.status.extractLsb' 4 4 = s.errcode ∧ s.status.extractLsb' 8 24 = 0#24

/-- `30_encoding.md` R72: the only values of `STATUS` in the states that meet the invariant, and what each means; and
no other value is reachable. -/
def Obligations.StatusSixValues : Prop :=
  (∀ (kb n : Nat) (es : List Event) (s : State), Config.minKbytes ≤ kb → kb ≤ Config.maxKbytes →
    runs n { State.resetWith kb with pending := es } s →
      s.status ∈ [0x00000000#32, 0x00000001#32, 0x00000002#32, 0x00000016#32, 0x00000026#32, 0x00000036#32]) ∧
  ∀ (s : State), Inv s →
    (s.status = 0x00000000#32 ∧ s.phase = .idle ∧ s.done = false ∧ s.errcode = 0#4) ∨
    (s.status = 0x00000001#32 ∧ s.phase = .run ∧ s.done = false ∧ s.errcode = 0#4) ∨
    (s.status = 0x00000002#32 ∧ s.phase = .idle ∧ s.done = true ∧ s.errcode = 0#4) ∨
    (s.status = 0x00000016#32 ∧ s.phase = .idle ∧ s.done = true ∧ s.errcode = Err.messageTooLong.code) ∨
    (s.status = 0x00000026#32 ∧ s.phase = .idle ∧ s.done = true ∧ s.errcode = Err.invalidParameters.code) ∨
    (s.status = 0x00000036#32 ∧ s.phase = .idle ∧ s.done = true ∧ s.errcode = Err.illegalCommand.code)

/-- `43_host_interface.md` R106 for `r` other than `CMD`, `10_state.md` R38: `WrCtl(r, v)` in both phases. -/
def Obligations.WrCtlOtherThanCommand : Prop :=
  ∀ (s : State) (r : Fin 65536) (v : Word32) (rest : List Event),
    s.pending = .host (.wrCtl r v) :: rest → r.val ≠ 0 →
      step s = .next { s with
        pending := rest, reply := none,
        ilen := if r.val = 2 ∧ v.toNat ≤ s.kbytes then v.toNat else s.ilen }

/-- `43_host_interface.md` R107: `WrIR(k, v)`, in both phases. -/
def Obligations.WrIRWritesOneRegister : Prop :=
  ∀ (s : State) (k : Fin 16) (v : Nat) (rest : List Event),
    s.pending = .host (.wrIR k v) :: rest → v < 2 ^ s.width →
      ∃ t, step s = .next t ∧ t = { s with pending := rest, reply := none, ir := t.ir } ∧
        ∀ j : Fin 12, t.reg j = if j.val = k.val ∧ k.val ≤ 10 then v else s.reg j

/-- `43_host_interface.md` R108: `RdIR(k)`. -/
def Obligations.RdIRReturns : Prop :=
  ∀ (s : State) (k : Fin 16) (rest : List Event), s.pending = .host (.rdIR k) :: rest →
    ∃ v, step s = .next { s with pending := rest, reply := some (.int v) } ∧
      (∀ j : Fin 12, j.val = k.val → v = s.reg j) ∧ (12 ≤ k.val → v = 0)

/-- `43_host_interface.md` R109: `WrIBUF(i, b)`, in both phases; `ILEN` and every other byte are as before. -/
def Obligations.WrIBUFWritesOneByte : Prop :=
  ∀ (s : State) (i : Fin 65536) (b : Byte) (rest : List Event),
    Memory.wf s.ibuf = true → s.pending = .host (.wrIBUF i b) :: rest →
      ∃ t, step s = .next t ∧ t = { s with pending := rest, reply := none, ibuf := t.ibuf } ∧
        ∀ a, Memory.read t.ibuf a = if a = i.val ∧ i.val < s.kbytes then b else Memory.read s.ibuf a

/-- `43_host_interface.md` R110, R111: `RdIBUF(i)` and `RdOBUF(i)`; above `OLEN` the output reads 0x00. -/
def Obligations.RdBuffersReturn : Prop :=
  ∀ (s : State) (i : Fin 65536) (rest : List Event),
    (s.pending = .host (.rdIBUF i) :: rest →
      ∃ b, step s = .next { s with pending := rest, reply := some (.byte b) } ∧
        (i.val < s.kbytes → b = Memory.read s.ibuf i.val) ∧ (s.kbytes ≤ i.val → b = 0#8)) ∧
    (s.pending = .host (.rdOBUF i) :: rest →
      ∃ b, step s = .next { s with pending := rest, reply := some (.byte b) } ∧
        (i.val < s.kbytes → b = Memory.read s.obuf i.val) ∧ (s.kbytes ≤ i.val → b = 0#8) ∧
        (Inv s → s.olen ≤ i.val → b = 0#8))

/-- `20_memory.md` R56: reserved and out-of-range locations are inert, and so are writes to read-only ones. -/
def Obligations.InertLocations : Prop :=
  ∀ (s : State) (rest : List Event),
    (∀ k : Fin 16, 12 ≤ k.val → s.pending = .host (.rdIR k) :: rest →
      step s = .next { s with pending := rest, reply := some (.int 0) }) ∧
    (∀ r : Fin 65536, 5 ≤ r.val → s.pending = .host (.rdCtl r) :: rest →
      step s = .next { s with pending := rest, reply := some (.ctl 0#32) }) ∧
    (∀ i : Fin 65536, s.kbytes ≤ i.val →
      s.pending = .host (.rdIBUF i) :: rest ∨ s.pending = .host (.rdOBUF i) :: rest →
        step s = .next { s with pending := rest, reply := some (.byte 0#8) }) ∧
    (∀ (k : Fin 16) (v : Nat), 11 ≤ k.val → v < 2 ^ s.width → s.pending = .host (.wrIR k v) :: rest →
      step s = .next { s with pending := rest, reply := none }) ∧
    (∀ (r : Fin 65536) (v : Word32), r.val = 1 ∨ 3 ≤ r.val → s.pending = .host (.wrCtl r v) :: rest →
      step s = .next { s with pending := rest, reply := none }) ∧
    (∀ (i : Fin 65536) (b : Byte), s.kbytes ≤ i.val → s.pending = .host (.wrIBUF i b) :: rest →
      step s = .next { s with pending := rest, reply := none })

/-- A step is refused exactly for a `WrIR` value that "cannot be expressed" (`43_host_interface.md` R104), and by that
name; no step is refused otherwise. The refusal is the model's choice (log 7). -/
def Obligations.RefusedExactlyWhenInexpressible : Prop :=
  ∀ (s : State) (r : Refusal), step s = .refused r ↔
    r = .valueTooWide ∧
      ∃ (k : Fin 16) (v : Nat) (rest : List Event), s.pending = .host (.wrIR k v) :: rest ∧ 2 ^ s.width ≤ v

/-- `10_state.md` R27: what a transaction returns does not depend on the working registers. -/
def Obligations.WorkingRegistersAreHidden : Prop :=
  ∀ (s t : State) (x : HostTxn) (rest : List Event) (b e m r : Nat),
    s.pending = .host x :: rest → (∀ w, x ≠ .wrCtl CTL.CMD w) → step s = .next t →
      step { s with wb := b, wx := e, wm := m, wr := r } = .next { t with wb := b, wx := e, wm := m, wr := r }

/-- `20_memory.md` R59, `43_host_interface.md` R115: while an operation runs, a host's write (of a register, a byte or
`ILEN`) and the engine's turn, iteration or finish, give the same state in either order. -/
def Obligations.HostWritesAndEngineCommute : Prop :=
  ∀ (s : State) (x : HostTxn) (rest : List Event), Inv s → s.phase = .run →
    (∃ k v, x = .wrIR k v) ∨ (∃ i b, x = .wrIBUF i b) ∨ (∃ r v, x = .wrCtl r v ∧ r ≠ CTL.CMD) →
    x.expressible s.kbytes = true →
      ∃ t, runs 2 { s with pending := .host x :: .engine :: rest } t ∧
        runs 2 { s with pending := .engine :: .host x :: rest } t

/-! ## Reset -/

/-- `70_reset_and_hazards.md` R142, R143, `10_state.md` R42: reset from any state, also in RUN. -/
def Obligations.ResetClearsEverything : Prop :=
  ∀ (s : State) (rest : List Event), s.pending = .reset :: rest →
    ∃ t, step s = .next t ∧ (∀ k, t.reg k = 0) ∧
      (∀ a, Memory.read t.ibuf a = 0#8) ∧ (∀ a, Memory.read t.obuf a = 0#8) ∧ t.ilen = 0 ∧ t.olen = 0 ∧
      t.wb = 0 ∧ t.wx = 0 ∧ t.wm = 0 ∧ t.wr = 0 ∧ t.op = 0#32 ∧ t.phase = .idle ∧ t.done = false ∧
      t.errcode = 0#4 ∧ t.status = 0#32 ∧ t.kbytes = s.kbytes ∧ t.pending = rest

/-- `70_reset_and_hazards.md` R144: in the reset state of a block of any capacity every command completes with an
error. -/
def Obligations.ResetStateCommandsAllFail : Prop :=
  ∀ (kb : Nat) (w : Word32),
    ∃ t, step { State.resetWith kb with pending := [.host (.wrCtl CTL.CMD w)] } = .next t ∧
      ErrorCompletion w
        (if w = 0x00000001#32 ∨ w = 0x00000003#32 then .invalidParameters
         else if w = 0x00000002#32 then .messageTooLong else .illegalCommand)
        (State.resetWith kb) t

/-! ## Invariants and whole-machine rules -/

/-- `10_state.md` R42, R44: the invariant holds after reset, for every capacity the spec allows. -/
def Obligations.ResetMeetsInvariant : Prop :=
  (∀ kb, Config.minKbytes ≤ kb → kb ≤ Config.maxKbytes → Inv (State.resetWith kb)) ∧ Inv State.reset

/-- `10_state.md` R43, R44: every step keeps the invariant. -/
def Obligations.EveryStepKeepsInvariant : Prop :=
  ∀ (s t : State), Inv s → step s = .next t → Inv t

/-- `10_state.md` R44: every state reachable from reset, for every capacity and whatever the host, the platform and
the engine's turns are, meets the invariant. -/
def Obligations.ReachableStatesMeetInvariant : Prop :=
  ∀ (kb n : Nat) (es : List Event) (t : State), Config.minKbytes ≤ kb → kb ≤ Config.maxKbytes →
    runs n { State.resetWith kb with pending := es } t → Inv t

/-- `60_exceptions.md` R128, R141: from a state that meets the invariant, with transactions the host can express, the
machine never stops: no fault, no refusal, however many steps. -/
def Obligations.MachineNeverStops : Prop :=
  ∀ (n : Nat) (s : State), Inv s → pendingWellFormed s → ∃ t, runs n s t ∧ Inv t ∧ pendingWellFormed t

/-- `10_state.md` R19, R21: a key or operand register changes only by the host's `WrIR` of it, and by reset. -/
def Obligations.InputRegistersChangeOnlyByHostOrReset : Prop :=
  ∀ (s t : State) (k : Fin 12), k ≠ IR.RES → step s = .next t → t.reg k ≠ s.reg k →
    (∃ (j : Fin 16) (v : Nat) (rest : List Event),
      s.pending = .host (.wrIR j v) :: rest ∧ j.val = k.val ∧ t.reg k = v) ∨
    (∃ rest, s.pending = .reset :: rest ∧ t.reg k = 0)

/-- `10_state.md` R25: `IBUF` and `ILEN` change only by the host's writes of them, and by reset. -/
def Obligations.InputBufferChangesOnlyByHostOrReset : Prop :=
  ∀ (s t : State), Memory.wf s.ibuf = true → step s = .next t →
    (∀ a, Memory.read t.ibuf a ≠ Memory.read s.ibuf a →
      (∃ (i : Fin 65536) (b : Byte) (rest : List Event),
        s.pending = .host (.wrIBUF i b) :: rest ∧ i.val = a ∧ a < s.kbytes ∧ Memory.read t.ibuf a = b) ∨
      (∃ rest, s.pending = .reset :: rest)) ∧
    (t.ilen ≠ s.ilen →
      (∃ (v : Word32) (rest : List Event),
        s.pending = .host (.wrCtl CTL.ILEN v) :: rest ∧ v.toNat ≤ s.kbytes ∧ t.ilen = v.toNat) ∨
      (∃ rest, s.pending = .reset :: rest))

/-- `10_state.md` R22, R26, `43_host_interface.md` R116: the outputs change only at a finish step, at an error
completion, and by reset; an operation that starts or runs leaves them. -/
def Obligations.OutputsChangeOnlyAtCompletion : Prop :=
  ∀ (s t : State), step s = .next t → ¬ SameOutputs s t →
    (s.phase = .run ∧ s.wx = 0 ∧ t.phase = .idle ∧ t.done = true ∧ t.reg IR.RES = s.wr) ∨
    (s.phase = .idle ∧ (∃ w rest, s.pending = .host (.wrCtl CTL.CMD w) :: rest) ∧ t.errcode ≠ 0#4 ∧
      t.done = true ∧ t.reg IR.RES = 0 ∧ t.olen = 0) ∨
    (∃ rest, s.pending = .reset :: rest)

/-- `10_state.md` R29: `OP` is written only by acceptance, with the word written, and by reset. -/
def Obligations.OpWrittenOnlyByAcceptance : Prop :=
  ∀ (s t : State), step s = .next t →
    (∀ w rest, s.pending = .host (.wrCtl CTL.CMD w) :: rest → s.phase = .idle → t.op = w) ∧
    (t.op ≠ s.op →
      (s.phase = .idle ∧ ∃ rest, s.pending = .host (.wrCtl CTL.CMD t.op) :: rest) ∨
      (∃ rest, s.pending = .reset :: rest ∧ t.op = 0#32))

/-- `10_state.md` R31: an acceptance that goes to RUN clears `DONE`, the finish step and the error completion set it,
reset clears it, and nothing else changes it. -/
def Obligations.DoneFlagRule : Prop :=
  ∀ (s t : State), step s = .next t →
    (∀ w rest, s.pending = .host (.wrCtl CTL.CMD w) :: rest → s.phase = .idle →
      (t.phase = .run → t.done = false) ∧ (t.phase = .idle → t.done = true)) ∧
    ((s.pending = [] ∨ ∃ rest, s.pending = .engine :: rest) → s.phase = .run → s.wx = 0 → t.done = true) ∧
    (∀ rest, s.pending = .reset :: rest → t.done = false) ∧
    (t.done ≠ s.done →
      (∃ w rest, s.pending = .host (.wrCtl CTL.CMD w) :: rest ∧ s.phase = .idle) ∨
      (s.phase = .run ∧ s.wx = 0 ∧ t.phase = .idle) ∨ (∃ rest, s.pending = .reset :: rest))

/-- `10_state.md` R37: `CAP` returns KBYTES, which no step, reset included, changes. -/
def Obligations.CapIsConstant : Prop :=
  (∀ (n : Nat) (s t : State), runs n s t → t.kbytes = s.kbytes) ∧
  (∀ (s : State) (rest : List Event), s.pending = .host (.rdCtl 4) :: rest →
    step s = .next { s with pending := rest, reply := some (.ctl (BitVec.ofNat 32 s.kbytes)) }) ∧
  (∀ (s : State) (v : Word32) (rest : List Event), s.pending = .host (.wrCtl 4 v) :: rest →
    step s = .next { s with pending := rest, reply := none })

/-! ## Byte sequences -/

/-- `20_memory.md` R46: the input value is the big-endian sum over `IBUF[0 .. ILEN-1]`; bytes from `ILEN` on are not
read, and the value fits a register. -/
def Obligations.InputDecodeIsBigEndian : Prop :=
  ∀ (s : State),
    s.inputValue =
      ∑ i ∈ Finset.range s.ilen, (Memory.read s.ibuf i).toNat * 256 ^ (s.ilen - 1 - i) ∧
    (∀ t : State, t.ilen = s.ilen → (∀ a, a < s.ilen → Memory.read t.ibuf a = Memory.read s.ibuf a) →
      t.inputValue = s.inputValue) ∧
    (s.ilen = 0 → s.inputValue = 0) ∧ (s.ilen ≤ s.kbytes → s.inputValue < 2 ^ s.width)

/-- `00_scope.md` R13: `OS2IP` and `I2OSP_min` are inverse up to leading zero bytes; the encoding has no leading zero
byte. -/
def Obligations.ByteSequencesRoundTrip : Prop :=
  (∀ bs : List Byte, os2ip bs =
    ∑ i ∈ Finset.range bs.length, (bs.getD i 0#8).toNat * 256 ^ (bs.length - 1 - i)) ∧
  (∀ v, (i2ospMin v).length = bytelen v ∧ ∀ i, i < bytelen v →
    ((i2ospMin v).getD i 0#8).toNat = (v >>> (8 * (bytelen v - 1 - i))) % 256) ∧
  (∀ v, os2ip (i2ospMin v) = v) ∧
  (∀ bs : List Byte, i2ospMin (os2ip bs) = bs.dropWhile (· = 0#8)) ∧
  (∀ (v : Nat) (b : Byte) (bs : List Byte), i2ospMin v = b :: bs → b ≠ 0#8)

/-- `41_encrypt.md` R96, `20_memory.md` R49: two messages that differ only in leading zero bytes load the engine
alike. -/
def Obligations.LeadingZerosEncryptAlike : Prop :=
  ∀ (s s' : State) (n : Nat), s.phase = .idle → s'.phase = .idle →
    s'.reg IR.N = s.reg IR.N → s'.reg IR.E = s.reg IR.E → s'.input = List.replicate n 0#8 ++ s.input →
      ∃ t t', exec .encrypt s = .next t ∧ exec .encrypt s' = .next t' ∧ t'.phase = t.phase ∧
        t'.errcode = t.errcode ∧
        (t.phase = .run → t'.wb = t.wb ∧ t'.wx = t.wx ∧ t'.wm = t.wm ∧ t'.wr = t.wr)

/-- `42_decrypt.md` R101: the ciphertext is reduced modulo `P*Q`, ciphertexts that differ by a multiple of it give the
same result, none is rejected for its size, and DECRYPT never raises `MESSAGE_TOO_LONG`. -/
def Obligations.DecryptReducesCiphertext : Prop :=
  ∀ (s s' : State) (k : Nat), s.phase = .idle → s'.phase = .idle →
    s'.reg IR.P = s.reg IR.P → s'.reg IR.Q = s.reg IR.Q → s'.reg IR.D = s.reg IR.D → s'.kbytes = s.kbytes →
    s'.inputValue = s.inputValue + k * (s.reg IR.P * s.reg IR.Q) →
      ∃ t t', exec .decrypt s = .next t ∧ exec .decrypt s' = .next t' ∧
        t.errcode ≠ Err.messageTooLong.code ∧ t'.errcode = t.errcode ∧ t'.phase = t.phase ∧
        (t.phase = .run → t.wb = s.inputValue % (s.reg IR.P * s.reg IR.Q) ∧
          ∃ u u', runs (bitlen (s.reg IR.D) + 1) t.alone u ∧ runs (bitlen (s.reg IR.D) + 1) t'.alone u' ∧
            u'.reg IR.RES = u.reg IR.RES ∧ u'.output = u.output ∧ u.status = 0x00000002#32 ∧
            u'.status = 0x00000002#32)

/-- `10_state.md` R18, `42_decrypt.md` R102: no command and no engine step reads `DP`, `DQ` or `QINV`, and neither
DECRYPT nor an engine step reads `N`: other values there change nothing else. -/
def Obligations.CrtRegistersNeverRead : Prop :=
  ∀ (s t : State) (k : Fin 12) (v : Nat),
    (k = IR.DP ∨ k = IR.DQ ∨ k = IR.QINV → ∀ i : Instr, exec i s = .next t →
      exec i (s.setReg k v) = .next (t.setReg k v)) ∧
    (k = IR.N → exec .decrypt s = .next t → exec .decrypt (s.setReg k v) = .next (t.setReg k v)) ∧
    (k = IR.DP ∨ k = IR.DQ ∨ k = IR.QINV ∨ k = IR.N → engineStep s = .next t →
      engineStep (s.setReg k v) = .next (t.setReg k v))

/-- `30_encoding.md` R71: `LOAD {b0, ..., b(n-1)}` leaves exactly that sequence as the input, in either phase. -/
def Obligations.LoadSetsInput : Prop :=
  ∀ (s : State) (bs : List Byte) (rest : List Event),
    Memory.wf s.ibuf = true → bs.length ≤ s.kbytes → s.kbytes ≤ Config.maxKbytes →
    s.pending = scriptEvents [.load bs] ++ rest →
      ∃ t, runs (bs.length + 1) s t ∧ t.input = bs ∧ t.ilen = bs.length ∧ t.inputValue = os2ip bs ∧
        t = { s with pending := rest, reply := none, ibuf := t.ibuf, ilen := t.ilen } ∧
        (∀ a, bs.length ≤ a → Memory.read t.ibuf a = Memory.read s.ibuf a)

/-- `30_encoding.md` R71, `43_host_interface.md` R118: `UNLOAD` reads `OLEN` and then the output, byte by byte, and
changes nothing of the block. -/
def Obligations.UnloadReturnsOutput : Prop :=
  ∀ (s : State) (rest : List Event), Inv s → s.pending = scriptEvents [.unload s.olen] ++ rest →
    (∃ t, runs 1 s t ∧ t.reply = some (.ctl (BitVec.ofNat 32 s.olen))) ∧
    (∀ i, i < s.olen → ∃ t, runs (i + 2) s t ∧ t.reply = some (.byte (s.output.getD i 0#8))) ∧
    (∃ t, runs (s.olen + 1) s t ∧ t = { s with pending := rest, reply := t.reply })

/-- `60_exceptions.md` R137: a step of one block is that block's step and leaves every other block alone. -/
def Obligations.InstancesShareNothing : Prop :=
  ∀ (bs cs : Instances) (k : Nat), stepInstance k bs = .next cs →
    (∀ j, j ≠ k → cs[j]? = bs[j]?) ∧
    (∀ s, bs[k]? = some s → ∃ t, step s = .next t ∧ cs[k]? = some t)
end

