-- ==== Sys2Proof/Laws/Bytes.lean ====
section
/-! SUPPORT. `bitlen`, `bytelen`, `OS2IP` and `I2OSP_min`. -/

namespace Sys2Proof.Machine

@[simp] theorem bitlen_zero : bitlen 0 = 0 := rfl

/-- `bitlen v` is the least `k` with `v < 2^k` (`00_scope.md` R10). -/
theorem bitlen_le_iff (v k : Nat) : bitlen v ≤ k ↔ v < 2 ^ k := by
  unfold bitlen
  split
  · next h => subst h; simp
  · next h => rw [Nat.add_one_le_iff, Nat.log2_lt h]

theorem lt_two_pow_bitlen (v : Nat) : v < 2 ^ bitlen v := (bitlen_le_iff v _).1 (Nat.le_refl _)

theorem bitlen_eq_zero (v : Nat) : bitlen v = 0 ↔ v = 0 := by
  constructor
  · intro h
    have := (bitlen_le_iff v 0).1 (by omega)
    simpa using this
  · rintro rfl; rfl

/-- Halving drops one bit (`40_modpow_engine.md` R88). -/
theorem bitlen_shiftRight_one {v : Nat} (h : 0 < v) : bitlen (v >>> 1) + 1 = bitlen v := by
  have key : ∀ k, bitlen (v >>> 1) ≤ k ↔ bitlen v ≤ k + 1 := fun k => by
    rw [bitlen_le_iff, bitlen_le_iff, Nat.shiftRight_eq_div_pow, Nat.pow_succ]
    omega
  have h1 : bitlen v ≠ 0 := fun e => by rw [bitlen_eq_zero] at e; omega
  have a := (key (bitlen (v >>> 1))).1 (Nat.le_refl _)
  have b := (key (bitlen v - 1)).2 (by omega)
  omega

@[simp] theorem bytelen_zero : bytelen 0 = 0 := rfl

/-- `v` fits `k` bytes exactly when its minimal encoding has at most `k` bytes. -/
theorem bytelen_le_iff (v k : Nat) : bytelen v ≤ k ↔ v < 256 ^ k := by
  have h : (256 : Nat) ^ k = 2 ^ (8 * k) := by rw [Nat.pow_mul]
  rw [h, ← bitlen_le_iff, bytelen]
  omega

theorem lt_pow_bytelen (v : Nat) : v < 256 ^ bytelen v := (bytelen_le_iff v _).1 (Nat.le_refl _)

@[simp] theorem length_i2ospMin (v : Nat) : (i2ospMin v).length = bytelen v := by simp [i2ospMin]

@[simp] theorem os2ip_nil : os2ip [] = 0 := rfl

theorem os2ip_lt (s : List Byte) : os2ip s < 256 ^ s.length := by
  induction s with
  | nil => simp
  | cons b s ih =>
    have hb : b.toNat < 256 := b.isLt
    simp only [os2ip, List.length_cons, Nat.pow_succ]
    nlinarith [Nat.pow_pos (n := s.length) (show 0 < 256 by decide)]

theorem os2ip_append (s t : List Byte) : os2ip (s ++ t) = os2ip s * 256 ^ t.length + os2ip t := by
  induction s with
  | nil => simp
  | cons b s ih => simp only [List.cons_append, os2ip, ih, List.length_append, Nat.pow_add]; ring

/-- Leading zero bytes add nothing (`20_memory.md` R46). -/
theorem os2ip_replicate_zero (n : Nat) (s : List Byte) : os2ip (List.replicate n 0#8 ++ s) = os2ip s := by
  induction n with
  | zero => rfl
  | succ n ih => simp [List.replicate_succ, os2ip, ih]

/-- The `n` low bytes of `v`, most significant first. -/
theorem os2ip_bytes (v n : Nat) :
    os2ip ((List.range n).map fun i => BitVec.ofNat 8 ((v >>> (8 * (n - 1 - i))) % 256)) = v % 256 ^ n := by
  induction n generalizing v with
  | zero => simp [Nat.mod_one]
  | succ n ih =>
    rw [List.range_succ, List.map_append, os2ip_append]
    have e : (List.range n).map (fun i => BitVec.ofNat 8 ((v >>> (8 * (n + 1 - 1 - i))) % 256)) =
        (List.range n).map fun i => BitVec.ofNat 8 (((v / 256) >>> (8 * (n - 1 - i))) % 256) := by
      apply List.map_congr_left
      intro i hi
      have hi := List.mem_range.1 hi
      have h1 : 8 * (n + 1 - 1 - i) = 8 + 8 * (n - 1 - i) := by omega
      rw [h1, Nat.shiftRight_add, Nat.shiftRight_eq_div_pow v 8]
    rw [e, ih]
    have h2 : v % 256 ^ (n + 1) = v % 256 + 256 * (v / 256 % 256 ^ n) := by
      rw [Nat.pow_succ', Nat.mod_mul]
    rw [h2]
    simp only [List.map_cons, List.map_nil, os2ip, List.length_nil, List.length_cons, Nat.add_sub_cancel,
      Nat.sub_self, Nat.mul_zero, Nat.shiftRight_zero, BitVec.toNat_ofNat]
    omega

/-- "For every `v`, `OS2IP(I2OSP_min(v)) = v`" (`00_scope.md` R13). -/
theorem os2ip_i2ospMin (v : Nat) : os2ip (i2ospMin v) = v := by
  rw [i2ospMin, os2ip_bytes, Nat.mod_eq_of_lt (lt_pow_bytelen v)]

/-- Sequences of one length with one value are equal. -/
theorem os2ip_inj {s t : List Byte} (hl : s.length = t.length) (h : os2ip s = os2ip t) : s = t := by
  induction s generalizing t with
  | nil => exact (List.length_eq_zero_iff.1 hl.symm).symm
  | cons b s ih =>
    cases t with
    | nil => simp at hl
    | cons c t =>
      simp only [List.length_cons, Nat.add_right_cancel_iff] at hl
      simp only [os2ip, hl] at h
      have hs := os2ip_lt s
      have ht := os2ip_lt t
      rw [hl] at hs
      have hbc : b.toNat = c.toNat := by
        have q : ∀ x y k : Nat, y < k → (x * k + y) / k = x := fun x y k hy => by
          rw [Nat.mul_comm, Nat.mul_add_div (by omega), Nat.div_eq_of_lt hy, Nat.add_zero]
        rw [← q b.toNat _ _ hs, h, q _ _ _ ht]
      rw [hbc] at h
      rw [BitVec.eq_of_toNat_eq hbc, ih hl (by omega)]

/-- A sequence with a nonzero first byte has the minimal length of its value. -/
theorem bytelen_os2ip {b : Byte} {s : List Byte} (hb : b ≠ 0#8) : bytelen (os2ip (b :: s)) = s.length + 1 := by
  have h1 : bytelen (os2ip (b :: s)) ≤ s.length + 1 := (bytelen_le_iff _ _).2 (os2ip_lt (b :: s))
  have h2 : ¬ bytelen (os2ip (b :: s)) ≤ s.length := by
    rw [bytelen_le_iff, os2ip]
    have : b.toNat ≠ 0 := fun h => hb (BitVec.eq_of_toNat_eq (by simpa using h))
    nlinarith [Nat.pow_pos (n := s.length) (show 0 < 256 by decide), Nat.one_le_iff_ne_zero.2 this]
  omega

/-- `OS2IP` as the sum of `00_scope.md` R13. -/
theorem os2ip_eq_sum (f : Nat → Byte) (n : Nat) :
    os2ip ((List.range n).map f) = ∑ i ∈ Finset.range n, (f i).toNat * 256 ^ (n - 1 - i) := by
  induction n with
  | zero => rfl
  | succ n ih =>
    rw [List.range_succ, List.map_append, os2ip_append, ih, Finset.sum_range_succ, Finset.sum_mul]
    simp only [List.map_cons, List.map_nil, os2ip, List.length_nil, List.length_cons]
    congr 1
    · refine Finset.sum_congr rfl fun i hi => ?_
      have := Finset.mem_range.1 hi
      rw [mul_assoc, Nat.zero_add, ← pow_add]; congr 2; omega
    · simp

/-- A sequence without a leading zero byte is the encoding of its value. -/
theorem i2ospMin_os2ip_cons {b : Byte} {bs : List Byte} (hb : b ≠ 0#8) : i2ospMin (os2ip (b :: bs)) = b :: bs := by
  apply os2ip_inj
  · rw [length_i2ospMin, bytelen_os2ip hb]; rfl
  · rw [os2ip_i2ospMin]

end Sys2Proof.Machine
end

