-- ==== Sys2Proof/Laws/Decode.lean ====
section
/-! SUPPORT. What `decode` answers, said once (`30_encoding.md` R74). -/

namespace Sys2Proof

theorem decode_encode (i : Instr) : decode (encode i) = .command i := by cases i <;> rfl

/-- A word that decodes to a command is that command's word. -/
theorem eq_encode_of_decode {w : Word32} {i : Instr} (h : decode w = .command i) : w = encode i := by
  simp only [decode] at h
  split at h
  · next hw => cases h; exact hw
  · split at h
    · next hw => cases h; exact hw
    · split at h
      · next hw => cases h; exact hw
      · cases h

/-- A word is ILLEGAL exactly when it is no command's word. -/
theorem decode_illegal_iff (w : Word32) : decode w = .illegal ↔ ∀ i, w ≠ encode i := by
  constructor
  · rintro h i rfl
    rw [decode_encode] at h
    cases h
  · intro h
    cases hd : decode w with
    | illegal => rfl
    | command i => exact absurd (eq_encode_of_decode hd) (h i)

/-- The mask of every row of `30_encoding.md` R64 keeps the whole word. -/
theorem and_mask (w : Word32) : w &&& 0xFFFFFFFF#32 = w := BitVec.and_allOnes

end Sys2Proof
end

