-- ==== Sys2Proof/Laws/Memory.lean ====
section
/-! SUPPORT. The buffers: read after write, and that every operation keeps the canonical form. -/

namespace Sys2Proof.Machine

theorem Memory.wfFrom_mono {lo lo' : Nat} {m : Memory} (h : Memory.wfFrom lo m = true) (hle : lo' ≤ lo) :
    Memory.wfFrom lo' m = true := by
  cases m with
  | nil => rfl
  | cons c m =>
    simp only [Memory.wfFrom, Bool.and_eq_true, decide_eq_true_eq] at h ⊢
    exact ⟨⟨by omega, h.1.2⟩, h.2⟩

/-- Below the first listed offset everything reads 0x00. -/
theorem Memory.read_of_lt {lo : Nat} {m : Memory} (h : Memory.wfFrom lo m = true) {a : Nat} (ha : a < lo) :
    Memory.read m a = 0#8 := by
  induction m generalizing lo with
  | nil => rfl
  | cons c m ih =>
    simp only [Memory.wfFrom, Bool.and_eq_true, decide_eq_true_eq] at h
    simp only [Memory.read]
    rw [if_neg (by omega)]
    exact ih h.2 (by omega)

theorem Memory.wfFrom_write {lo : Nat} {m : Memory} (h : Memory.wfFrom lo m = true) {a : Nat} (ha : lo ≤ a)
    (b : Byte) : Memory.wfFrom lo (Memory.write m a b) = true := by
  induction m generalizing lo with
  | nil => by_cases hb : b = 0#8 <;> simp [Memory.write, Memory.wfFrom, hb, ha]
  | cons c m ih =>
    obtain ⟨a', b'⟩ := c
    have h0 := h
    simp only [Memory.wfFrom, Bool.and_eq_true, decide_eq_true_eq] at h
    obtain ⟨⟨hlo, hb'⟩, hm⟩ := h
    simp only [Memory.write]
    split
    · split
      · exact h0
      · next hlt hb =>
        simp only [Memory.wfFrom, Bool.and_eq_true, decide_eq_true_eq]
        exact ⟨⟨ha, by simpa using hb⟩, ⟨by omega, hb'⟩, hm⟩
    · split
      · next heq =>
        split
        · exact Memory.wfFrom_mono hm (by omega)
        · next hb =>
          simp only [Memory.wfFrom, Bool.and_eq_true, decide_eq_true_eq]
          exact ⟨⟨ha, by simpa using hb⟩, heq ▸ hm⟩
      · simp only [Memory.wfFrom, Bool.and_eq_true, decide_eq_true_eq]
        exact ⟨⟨hlo, hb'⟩, ih hm (by omega)⟩

/-- A write keeps the canonical form. -/
theorem Memory.wf_write {m : Memory} (h : Memory.wf m = true) (a : Nat) (b : Byte) :
    Memory.wf (Memory.write m a b) = true :=
  Memory.wfFrom_write h (Nat.zero_le a) b

theorem Memory.read_write_from {lo : Nat} {m : Memory} (h : Memory.wfFrom lo m = true) (a : Nat) (b : Byte)
    (j : Nat) : Memory.read (Memory.write m a b) j = if j = a then b else Memory.read m j := by
  induction m generalizing lo with
  | nil =>
    by_cases hb : b = 0#8 <;> simp [Memory.write, Memory.read, hb]
  | cons c m ih =>
    obtain ⟨a', b'⟩ := c
    have h0 := h
    simp only [Memory.wfFrom, Bool.and_eq_true, decide_eq_true_eq] at h
    obtain ⟨-, hm⟩ := h
    simp only [Memory.write]
    split
    · next hlt =>
      split
      · next hb =>
        split
        · next hj =>
          subst hj
          rw [hb]
          exact Memory.read_of_lt (lo := a') (by
            simp only [Memory.wfFrom, Bool.and_eq_true, decide_eq_true_eq] at h0 ⊢
            exact ⟨⟨Nat.le_refl _, h0.1.2⟩, h0.2⟩) hlt
        · rfl
      · simp only [Memory.read]
    · split
      · next heq =>
        subst heq
        split
        · next hb =>
          simp only [Memory.read]
          split
          · next hj => rw [hj, hb]; exact Memory.read_of_lt hm (by omega)
          · rfl
        · simp only [Memory.read]
          split <;> rfl
      · next hne =>
        simp only [Memory.read, ih hm]
        split
        · next hj => rw [if_neg (by omega)]
        · rfl

/-- Read after write: the offset written gives the byte written, every other offset reads as before. -/
theorem Memory.read_write {m : Memory} (h : Memory.wf m = true) (a : Nat) (b : Byte) (j : Nat) :
    Memory.read (Memory.write m a b) j = if j = a then b else Memory.read m j :=
  Memory.read_write_from h a b j

/-- A write inside the capacity keeps every listed offset inside it. -/
theorem Memory.below_write {n : Nat} {m : Memory} (h : Memory.below n m = true) {a : Nat} (ha : a < n) (b : Byte) :
    Memory.below n (Memory.write m a b) = true := by
  induction m with
  | nil => by_cases hb : b = 0#8 <;> simp [Memory.write, Memory.below, hb, ha]
  | cons c m ih =>
    obtain ⟨a', b'⟩ := c
    simp only [Memory.below, List.all_cons, Bool.and_eq_true, decide_eq_true_eq] at h ih
    simp only [Memory.write]
    repeat' split
    all_goals
      simp only [Memory.below, List.all_cons, Bool.and_eq_true, decide_eq_true_eq]
      first
      | exact ⟨ha, h.1, h.2⟩
      | exact ⟨ha, h.2⟩
      | exact ⟨h.1, ih h.2⟩
      | exact h
      | exact h.2

/-- At and above the capacity everything reads 0x00. -/
theorem Memory.read_of_below {n : Nat} {m : Memory} (h : Memory.below n m = true) {a : Nat} (ha : n ≤ a) :
    Memory.read m a = 0#8 := by
  induction m with
  | nil => rfl
  | cons c m ih =>
    simp only [Memory.below, List.all_cons, Bool.and_eq_true, decide_eq_true_eq] at h ih
    simp only [Memory.read]
    rw [if_neg (by omega)]
    exact ih h.2

theorem Memory.wf_writeBytes {m : Memory} (h : Memory.wf m = true) (off : Nat) (s : List Byte) :
    Memory.wf (Memory.writeBytes m off s) = true := by
  induction s generalizing m off with
  | nil => exact h
  | cons b s ih => exact ih (Memory.wf_write h off b) _

theorem Memory.below_writeBytes {n : Nat} {m : Memory} (h : Memory.below n m = true) (off : Nat) (s : List Byte)
    (hs : off + s.length ≤ n) : Memory.below n (Memory.writeBytes m off s) = true := by
  induction s generalizing m off with
  | nil => exact h
  | cons b s ih =>
    simp only [List.length_cons] at hs
    exact ih (Memory.below_write h (by omega) b) _ (by omega)

/-- Read after `MemWrite`: inside the sequence its byte, outside it the byte before. -/
theorem Memory.read_writeBytes {m : Memory} (h : Memory.wf m = true) (off : Nat) (s : List Byte) (j : Nat) :
    Memory.read (Memory.writeBytes m off s) j =
      if off ≤ j ∧ j < off + s.length then s.getD (j - off) 0#8 else Memory.read m j := by
  induction s generalizing m off with
  | nil =>
    simp only [Memory.writeBytes, List.length_nil]
    rw [if_neg (by omega)]
  | cons b s ih =>
    simp only [Memory.writeBytes, ih (Memory.wf_write h off b), Memory.read_write h, List.length_cons]
    by_cases h1 : j = off
    · subst h1
      rw [if_neg (by omega), if_pos rfl, if_pos (by omega)]
      simp
    · by_cases h2 : off + 1 ≤ j ∧ j < off + 1 + s.length
      · rw [if_pos h2, if_pos (by omega)]
        obtain ⟨k, rfl⟩ : ∃ k, j = off + 1 + k := ⟨j - (off + 1), by omega⟩
        have e1 : off + 1 + k - (off + 1) = k := by omega
        have e2 : off + 1 + k - off = k + 1 := by omega
        rw [e1, e2, List.getD_cons_succ]
      · rw [if_neg h2, if_neg h1, if_neg (by omega)]

theorem Memory.wf_ofBytes (s : List Byte) : Memory.wf (Memory.ofBytes s) = true :=
  Memory.wf_writeBytes (m := []) rfl 0 s

theorem Memory.below_ofBytes {n : Nat} (s : List Byte) (h : s.length ≤ n) :
    Memory.below n (Memory.ofBytes s) = true :=
  Memory.below_writeBytes (m := []) rfl 0 s (by omega)

/-- The whole array: the sequence, then 0x00. -/
theorem Memory.read_ofBytes (s : List Byte) (j : Nat) : Memory.read (Memory.ofBytes s) j = s.getD j 0#8 := by
  rw [Memory.ofBytes, Memory.read_writeBytes rfl]
  split
  · simp
  · next h =>
    rw [Memory.read, List.getD_eq_default]
    omega

@[simp] theorem Memory.length_readBytes (m : Memory) (off n : Nat) : (Memory.readBytes m off n).length = n := by
  simp [Memory.readBytes]

/-- `MemRead` of what was written is the sequence. -/
theorem Memory.readBytes_ofBytes (s : List Byte) : Memory.readBytes (Memory.ofBytes s) 0 s.length = s := by
  apply List.ext_getElem
  · simp
  · intro i h1 h2
    simp [Memory.readBytes, Memory.read_ofBytes, List.getElem?_eq_getElem h2]

/-- Equal contents are equal canonical lists. -/
theorem Memory.ext_from {lo : Nat} {m m' : Memory} (h : Memory.wfFrom lo m = true) (h' : Memory.wfFrom lo m' = true)
    (hr : ∀ a, Memory.read m a = Memory.read m' a) : m = m' := by
  induction m generalizing lo m' with
  | nil =>
    cases m' with
    | nil => rfl
    | cons c m' =>
      obtain ⟨a, b⟩ := c
      simp only [Memory.wfFrom, Bool.and_eq_true, bne_iff_ne] at h'
      have := hr a
      simp only [Memory.read, if_true] at this
      exact absurd this.symm h'.1.2
  | cons c m ih =>
    obtain ⟨a, b⟩ := c
    simp only [Memory.wfFrom, Bool.and_eq_true, bne_iff_ne, decide_eq_true_eq] at h
    cases m' with
    | nil =>
      have := hr a
      simp only [Memory.read, if_true] at this
      exact absurd this h.1.2
    | cons c' m' =>
      obtain ⟨a', b'⟩ := c'
      simp only [Memory.wfFrom, Bool.and_eq_true, bne_iff_ne, decide_eq_true_eq] at h'
      have key : a = a' := by
        rcases Nat.lt_trichotomy a a' with hlt | heq | hgt
        · have := hr a
          simp only [Memory.read, if_true] at this
          rw [if_neg (by omega), Memory.read_of_lt h'.2 (by omega)] at this
          exact absurd this h.1.2
        · exact heq
        · have := hr a'
          simp only [Memory.read, if_true] at this
          rw [if_neg (by omega), Memory.read_of_lt h.2 (by omega)] at this
          exact absurd this.symm h'.1.2
      subst key
      have hb : b = b' := by simpa [Memory.read] using hr a
      subst hb
      have : m = m' := ih h.2 h'.2 (fun j => by
        have := hr j
        simp only [Memory.read] at this
        by_cases hj : j = a
        · subst hj
          rw [Memory.read_of_lt h.2 (by omega), Memory.read_of_lt h'.2 (by omega)]
        · simpa [hj] using this)
      rw [this]

theorem Memory.ext {m m' : Memory} (h : Memory.wf m = true) (h' : Memory.wf m' = true)
    (hr : ∀ a, Memory.read m a = Memory.read m' a) : m = m' :=
  Memory.ext_from h h' hr

end Sys2Proof.Machine
end

