-- ==== Sys2Proof/Laws/State.lean ====
section
/-! SUPPORT. Each named update of State, field by field: one lemma per field per update, so that no proof unfolds a
record update. `State.reg` of each update follows the fields. -/

namespace Sys2Proof.Machine

variable (s : State)

/-! `State.beginCommand` -/

@[simp] theorem State.beginCommand_ir (w : Word32) : (s.beginCommand w).ir = s.ir := rfl
@[simp] theorem State.beginCommand_ibuf (w : Word32) : (s.beginCommand w).ibuf = s.ibuf := rfl
@[simp] theorem State.beginCommand_ilen (w : Word32) : (s.beginCommand w).ilen = s.ilen := rfl
@[simp] theorem State.beginCommand_obuf (w : Word32) : (s.beginCommand w).obuf = s.obuf := rfl
@[simp] theorem State.beginCommand_olen (w : Word32) : (s.beginCommand w).olen = s.olen := rfl
@[simp] theorem State.beginCommand_wb (w : Word32) : (s.beginCommand w).wb = s.wb := rfl
@[simp] theorem State.beginCommand_wx (w : Word32) : (s.beginCommand w).wx = s.wx := rfl
@[simp] theorem State.beginCommand_wm (w : Word32) : (s.beginCommand w).wm = s.wm := rfl
@[simp] theorem State.beginCommand_wr (w : Word32) : (s.beginCommand w).wr = s.wr := rfl
@[simp] theorem State.beginCommand_op (w : Word32) : (s.beginCommand w).op = w := rfl
@[simp] theorem State.beginCommand_phase (w : Word32) : (s.beginCommand w).phase = s.phase := rfl
@[simp] theorem State.beginCommand_done (w : Word32) : (s.beginCommand w).done = false := rfl
@[simp] theorem State.beginCommand_errcode (w : Word32) : (s.beginCommand w).errcode = 0#4 := rfl
@[simp] theorem State.beginCommand_kbytes (w : Word32) : (s.beginCommand w).kbytes = s.kbytes := rfl
@[simp] theorem State.beginCommand_pending (w : Word32) : (s.beginCommand w).pending = s.pending := rfl
@[simp] theorem State.beginCommand_reply (w : Word32) : (s.beginCommand w).reply = s.reply := rfl

/-! `State.setup` -/

@[simp] theorem State.setup_ir (b e m : Nat) : (s.setup b e m).ir = s.ir := rfl
@[simp] theorem State.setup_ibuf (b e m : Nat) : (s.setup b e m).ibuf = s.ibuf := rfl
@[simp] theorem State.setup_ilen (b e m : Nat) : (s.setup b e m).ilen = s.ilen := rfl
@[simp] theorem State.setup_obuf (b e m : Nat) : (s.setup b e m).obuf = s.obuf := rfl
@[simp] theorem State.setup_olen (b e m : Nat) : (s.setup b e m).olen = s.olen := rfl
@[simp] theorem State.setup_wb (b e m : Nat) : (s.setup b e m).wb = b % m := rfl
@[simp] theorem State.setup_wx (b e m : Nat) : (s.setup b e m).wx = e := rfl
@[simp] theorem State.setup_wm (b e m : Nat) : (s.setup b e m).wm = m := rfl
@[simp] theorem State.setup_wr (b e m : Nat) : (s.setup b e m).wr = 1 % m := rfl
@[simp] theorem State.setup_op (b e m : Nat) : (s.setup b e m).op = s.op := rfl
@[simp] theorem State.setup_phase (b e m : Nat) : (s.setup b e m).phase = s.phase := rfl
@[simp] theorem State.setup_done (b e m : Nat) : (s.setup b e m).done = s.done := rfl
@[simp] theorem State.setup_errcode (b e m : Nat) : (s.setup b e m).errcode = s.errcode := rfl
@[simp] theorem State.setup_kbytes (b e m : Nat) : (s.setup b e m).kbytes = s.kbytes := rfl
@[simp] theorem State.setup_pending (b e m : Nat) : (s.setup b e m).pending = s.pending := rfl
@[simp] theorem State.setup_reply (b e m : Nat) : (s.setup b e m).reply = s.reply := rfl

/-! `State.startRun` -/

@[simp] theorem State.startRun_ir : (s.startRun).ir = s.ir := rfl
@[simp] theorem State.startRun_ibuf : (s.startRun).ibuf = s.ibuf := rfl
@[simp] theorem State.startRun_ilen : (s.startRun).ilen = s.ilen := rfl
@[simp] theorem State.startRun_obuf : (s.startRun).obuf = s.obuf := rfl
@[simp] theorem State.startRun_olen : (s.startRun).olen = s.olen := rfl
@[simp] theorem State.startRun_wb : (s.startRun).wb = s.wb := rfl
@[simp] theorem State.startRun_wx : (s.startRun).wx = s.wx := rfl
@[simp] theorem State.startRun_wm : (s.startRun).wm = s.wm := rfl
@[simp] theorem State.startRun_wr : (s.startRun).wr = s.wr := rfl
@[simp] theorem State.startRun_op : (s.startRun).op = s.op := rfl
@[simp] theorem State.startRun_phase : (s.startRun).phase = .run := rfl
@[simp] theorem State.startRun_done : (s.startRun).done = s.done := rfl
@[simp] theorem State.startRun_errcode : (s.startRun).errcode = s.errcode := rfl
@[simp] theorem State.startRun_kbytes : (s.startRun).kbytes = s.kbytes := rfl
@[simp] theorem State.startRun_pending : (s.startRun).pending = s.pending := rfl
@[simp] theorem State.startRun_reply : (s.startRun).reply = s.reply := rfl

/-! `State.raise` -/

@[simp] theorem State.raise_ir (x : Err) : (s.raise x).ir = s.ir.set IR.RES.val 0 IR.RES.isLt := rfl
@[simp] theorem State.raise_ibuf (x : Err) : (s.raise x).ibuf = s.ibuf := rfl
@[simp] theorem State.raise_ilen (x : Err) : (s.raise x).ilen = s.ilen := rfl
@[simp] theorem State.raise_obuf (x : Err) : (s.raise x).obuf = [] := rfl
@[simp] theorem State.raise_olen (x : Err) : (s.raise x).olen = 0 := rfl
@[simp] theorem State.raise_wb (x : Err) : (s.raise x).wb = s.wb := rfl
@[simp] theorem State.raise_wx (x : Err) : (s.raise x).wx = s.wx := rfl
@[simp] theorem State.raise_wm (x : Err) : (s.raise x).wm = s.wm := rfl
@[simp] theorem State.raise_wr (x : Err) : (s.raise x).wr = s.wr := rfl
@[simp] theorem State.raise_op (x : Err) : (s.raise x).op = s.op := rfl
@[simp] theorem State.raise_phase (x : Err) : (s.raise x).phase = s.phase := rfl
@[simp] theorem State.raise_done (x : Err) : (s.raise x).done = true := rfl
@[simp] theorem State.raise_errcode (x : Err) : (s.raise x).errcode = x.code := rfl
@[simp] theorem State.raise_kbytes (x : Err) : (s.raise x).kbytes = s.kbytes := rfl
@[simp] theorem State.raise_pending (x : Err) : (s.raise x).pending = s.pending := rfl
@[simp] theorem State.raise_reply (x : Err) : (s.raise x).reply = s.reply := rfl

/-! `State.deliver` -/

@[simp] theorem State.deliver_ir (v : Nat) : (s.deliver v).ir = s.ir.set IR.RES.val v IR.RES.isLt := rfl
@[simp] theorem State.deliver_ibuf (v : Nat) : (s.deliver v).ibuf = s.ibuf := rfl
@[simp] theorem State.deliver_ilen (v : Nat) : (s.deliver v).ilen = s.ilen := rfl
@[simp] theorem State.deliver_obuf (v : Nat) : (s.deliver v).obuf = Memory.ofBytes (i2ospMin v) := rfl
@[simp] theorem State.deliver_olen (v : Nat) : (s.deliver v).olen = bytelen v := rfl
@[simp] theorem State.deliver_wb (v : Nat) : (s.deliver v).wb = s.wb := rfl
@[simp] theorem State.deliver_wx (v : Nat) : (s.deliver v).wx = s.wx := rfl
@[simp] theorem State.deliver_wm (v : Nat) : (s.deliver v).wm = s.wm := rfl
@[simp] theorem State.deliver_wr (v : Nat) : (s.deliver v).wr = s.wr := rfl
@[simp] theorem State.deliver_op (v : Nat) : (s.deliver v).op = s.op := rfl
@[simp] theorem State.deliver_phase (v : Nat) : (s.deliver v).phase = s.phase := rfl
@[simp] theorem State.deliver_done (v : Nat) : (s.deliver v).done = s.done := rfl
@[simp] theorem State.deliver_errcode (v : Nat) : (s.deliver v).errcode = s.errcode := rfl
@[simp] theorem State.deliver_kbytes (v : Nat) : (s.deliver v).kbytes = s.kbytes := rfl
@[simp] theorem State.deliver_pending (v : Nat) : (s.deliver v).pending = s.pending := rfl
@[simp] theorem State.deliver_reply (v : Nat) : (s.deliver v).reply = s.reply := rfl

/-! `State.endRun` -/

@[simp] theorem State.endRun_ir : (s.endRun).ir = s.ir := rfl
@[simp] theorem State.endRun_ibuf : (s.endRun).ibuf = s.ibuf := rfl
@[simp] theorem State.endRun_ilen : (s.endRun).ilen = s.ilen := rfl
@[simp] theorem State.endRun_obuf : (s.endRun).obuf = s.obuf := rfl
@[simp] theorem State.endRun_olen : (s.endRun).olen = s.olen := rfl
@[simp] theorem State.endRun_wb : (s.endRun).wb = 0 := rfl
@[simp] theorem State.endRun_wx : (s.endRun).wx = 0 := rfl
@[simp] theorem State.endRun_wm : (s.endRun).wm = 0 := rfl
@[simp] theorem State.endRun_wr : (s.endRun).wr = 0 := rfl
@[simp] theorem State.endRun_op : (s.endRun).op = s.op := rfl
@[simp] theorem State.endRun_phase : (s.endRun).phase = .idle := rfl
@[simp] theorem State.endRun_done : (s.endRun).done = true := rfl
@[simp] theorem State.endRun_errcode : (s.endRun).errcode = s.errcode := rfl
@[simp] theorem State.endRun_kbytes : (s.endRun).kbytes = s.kbytes := rfl
@[simp] theorem State.endRun_pending : (s.endRun).pending = s.pending := rfl
@[simp] theorem State.endRun_reply : (s.endRun).reply = s.reply := rfl

/-! `State.iterate` -/

@[simp] theorem State.iterate_ir : (s.iterate).ir = s.ir := rfl
@[simp] theorem State.iterate_ibuf : (s.iterate).ibuf = s.ibuf := rfl
@[simp] theorem State.iterate_ilen : (s.iterate).ilen = s.ilen := rfl
@[simp] theorem State.iterate_obuf : (s.iterate).obuf = s.obuf := rfl
@[simp] theorem State.iterate_olen : (s.iterate).olen = s.olen := rfl
@[simp] theorem State.iterate_wb : (s.iterate).wb = s.wb * s.wb % s.wm := rfl
@[simp] theorem State.iterate_wx : (s.iterate).wx = s.wx >>> 1 := rfl
@[simp] theorem State.iterate_wm : (s.iterate).wm = s.wm := rfl
@[simp] theorem State.iterate_wr : (s.iterate).wr = if s.wx % 2 = 1 then s.wr * s.wb % s.wm else s.wr := rfl
@[simp] theorem State.iterate_op : (s.iterate).op = s.op := rfl
@[simp] theorem State.iterate_phase : (s.iterate).phase = s.phase := rfl
@[simp] theorem State.iterate_done : (s.iterate).done = s.done := rfl
@[simp] theorem State.iterate_errcode : (s.iterate).errcode = s.errcode := rfl
@[simp] theorem State.iterate_kbytes : (s.iterate).kbytes = s.kbytes := rfl
@[simp] theorem State.iterate_pending : (s.iterate).pending = s.pending := rfl
@[simp] theorem State.iterate_reply : (s.iterate).reply = s.reply := rfl

/-! `State.setReg` -/

@[simp] theorem State.setReg_ir (k : Fin 12) (v : Nat) : (s.setReg k v).ir = s.ir.set k.val v k.isLt := rfl
@[simp] theorem State.setReg_ibuf (k : Fin 12) (v : Nat) : (s.setReg k v).ibuf = s.ibuf := rfl
@[simp] theorem State.setReg_ilen (k : Fin 12) (v : Nat) : (s.setReg k v).ilen = s.ilen := rfl
@[simp] theorem State.setReg_obuf (k : Fin 12) (v : Nat) : (s.setReg k v).obuf = s.obuf := rfl
@[simp] theorem State.setReg_olen (k : Fin 12) (v : Nat) : (s.setReg k v).olen = s.olen := rfl
@[simp] theorem State.setReg_wb (k : Fin 12) (v : Nat) : (s.setReg k v).wb = s.wb := rfl
@[simp] theorem State.setReg_wx (k : Fin 12) (v : Nat) : (s.setReg k v).wx = s.wx := rfl
@[simp] theorem State.setReg_wm (k : Fin 12) (v : Nat) : (s.setReg k v).wm = s.wm := rfl
@[simp] theorem State.setReg_wr (k : Fin 12) (v : Nat) : (s.setReg k v).wr = s.wr := rfl
@[simp] theorem State.setReg_op (k : Fin 12) (v : Nat) : (s.setReg k v).op = s.op := rfl
@[simp] theorem State.setReg_phase (k : Fin 12) (v : Nat) : (s.setReg k v).phase = s.phase := rfl
@[simp] theorem State.setReg_done (k : Fin 12) (v : Nat) : (s.setReg k v).done = s.done := rfl
@[simp] theorem State.setReg_errcode (k : Fin 12) (v : Nat) : (s.setReg k v).errcode = s.errcode := rfl
@[simp] theorem State.setReg_kbytes (k : Fin 12) (v : Nat) : (s.setReg k v).kbytes = s.kbytes := rfl
@[simp] theorem State.setReg_pending (k : Fin 12) (v : Nat) : (s.setReg k v).pending = s.pending := rfl
@[simp] theorem State.setReg_reply (k : Fin 12) (v : Nat) : (s.setReg k v).reply = s.reply := rfl

/-! `State.advance` -/

@[simp] theorem State.advance_ir : (s.advance).ir = s.ir := rfl
@[simp] theorem State.advance_ibuf : (s.advance).ibuf = s.ibuf := rfl
@[simp] theorem State.advance_ilen : (s.advance).ilen = s.ilen := rfl
@[simp] theorem State.advance_obuf : (s.advance).obuf = s.obuf := rfl
@[simp] theorem State.advance_olen : (s.advance).olen = s.olen := rfl
@[simp] theorem State.advance_wb : (s.advance).wb = s.wb := rfl
@[simp] theorem State.advance_wx : (s.advance).wx = s.wx := rfl
@[simp] theorem State.advance_wm : (s.advance).wm = s.wm := rfl
@[simp] theorem State.advance_wr : (s.advance).wr = s.wr := rfl
@[simp] theorem State.advance_op : (s.advance).op = s.op := rfl
@[simp] theorem State.advance_phase : (s.advance).phase = s.phase := rfl
@[simp] theorem State.advance_done : (s.advance).done = s.done := rfl
@[simp] theorem State.advance_errcode : (s.advance).errcode = s.errcode := rfl
@[simp] theorem State.advance_kbytes : (s.advance).kbytes = s.kbytes := rfl
@[simp] theorem State.advance_pending : (s.advance).pending = s.pending.tail := rfl
@[simp] theorem State.advance_reply : (s.advance).reply = none := rfl

/-! `State.alone` -/

@[simp] theorem State.alone_ir : (s.alone).ir = s.ir := rfl
@[simp] theorem State.alone_ibuf : (s.alone).ibuf = s.ibuf := rfl
@[simp] theorem State.alone_ilen : (s.alone).ilen = s.ilen := rfl
@[simp] theorem State.alone_obuf : (s.alone).obuf = s.obuf := rfl
@[simp] theorem State.alone_olen : (s.alone).olen = s.olen := rfl
@[simp] theorem State.alone_wb : (s.alone).wb = s.wb := rfl
@[simp] theorem State.alone_wx : (s.alone).wx = s.wx := rfl
@[simp] theorem State.alone_wm : (s.alone).wm = s.wm := rfl
@[simp] theorem State.alone_wr : (s.alone).wr = s.wr := rfl
@[simp] theorem State.alone_op : (s.alone).op = s.op := rfl
@[simp] theorem State.alone_phase : (s.alone).phase = s.phase := rfl
@[simp] theorem State.alone_done : (s.alone).done = s.done := rfl
@[simp] theorem State.alone_errcode : (s.alone).errcode = s.errcode := rfl
@[simp] theorem State.alone_kbytes : (s.alone).kbytes = s.kbytes := rfl
@[simp] theorem State.alone_pending : (s.alone).pending = [] := rfl
@[simp] theorem State.alone_reply : (s.alone).reply = none := rfl

/-! `State.resetEvent` -/

@[simp] theorem State.resetEvent_ir : (s.resetEvent).ir = Vector.replicate 12 0 := rfl
@[simp] theorem State.resetEvent_ibuf : (s.resetEvent).ibuf = [] := rfl
@[simp] theorem State.resetEvent_ilen : (s.resetEvent).ilen = 0 := rfl
@[simp] theorem State.resetEvent_obuf : (s.resetEvent).obuf = [] := rfl
@[simp] theorem State.resetEvent_olen : (s.resetEvent).olen = 0 := rfl
@[simp] theorem State.resetEvent_wb : (s.resetEvent).wb = 0 := rfl
@[simp] theorem State.resetEvent_wx : (s.resetEvent).wx = 0 := rfl
@[simp] theorem State.resetEvent_wm : (s.resetEvent).wm = 0 := rfl
@[simp] theorem State.resetEvent_wr : (s.resetEvent).wr = 0 := rfl
@[simp] theorem State.resetEvent_op : (s.resetEvent).op = 0#32 := rfl
@[simp] theorem State.resetEvent_phase : (s.resetEvent).phase = .idle := rfl
@[simp] theorem State.resetEvent_done : (s.resetEvent).done = false := rfl
@[simp] theorem State.resetEvent_errcode : (s.resetEvent).errcode = 0#4 := rfl
@[simp] theorem State.resetEvent_kbytes : (s.resetEvent).kbytes = s.kbytes := rfl
@[simp] theorem State.resetEvent_pending : (s.resetEvent).pending = s.pending := rfl
@[simp] theorem State.resetEvent_reply : (s.resetEvent).reply = none := rfl

@[simp] theorem State.beginCommand_reg (w : Word32) (j : Fin 12) : (s.beginCommand w).reg j = s.reg j := rfl

@[simp] theorem State.setup_reg (b e m : Nat) (j : Fin 12) : (s.setup b e m).reg j = s.reg j := rfl

@[simp] theorem State.startRun_reg (j : Fin 12) : (s.startRun).reg j = s.reg j := rfl

@[simp] theorem State.raise_reg (x : Err) (j : Fin 12) :
    (s.raise x).reg j = if j = IR.RES then 0 else s.reg j := by
  simp [State.reg, Vector.getElem_set, Fin.ext_iff, eq_comm]


@[simp] theorem State.deliver_reg (v : Nat) (j : Fin 12) :
    (s.deliver v).reg j = if j = IR.RES then v else s.reg j := by
  simp [State.reg, Vector.getElem_set, Fin.ext_iff, eq_comm]


@[simp] theorem State.endRun_reg (j : Fin 12) : (s.endRun).reg j = s.reg j := rfl

@[simp] theorem State.iterate_reg (j : Fin 12) : (s.iterate).reg j = s.reg j := rfl

@[simp] theorem State.setReg_reg (k : Fin 12) (v : Nat) (j : Fin 12) :
    (s.setReg k v).reg j = if j = k then v else s.reg j := by
  simp [State.reg, Vector.getElem_set, Fin.ext_iff, eq_comm]


@[simp] theorem State.advance_reg (j : Fin 12) : (s.advance).reg j = s.reg j := rfl

@[simp] theorem State.alone_reg (j : Fin 12) : (s.alone).reg j = s.reg j := rfl

@[simp] theorem State.resetEvent_reg (j : Fin 12) : (s.resetEvent).reg j = 0 := by
  simp [State.reg]


@[simp] theorem State.beginCommand_width (w : Word32) : (s.beginCommand w).width = s.width := rfl
@[simp] theorem State.beginCommand_inputValue (w : Word32) : (s.beginCommand w).inputValue = s.inputValue := rfl
@[simp] theorem State.setup_width (b e m : Nat) : (s.setup b e m).width = s.width := rfl
@[simp] theorem State.setup_inputValue (b e m : Nat) : (s.setup b e m).inputValue = s.inputValue := rfl
@[simp] theorem State.startRun_width : (s.startRun).width = s.width := rfl
@[simp] theorem State.startRun_inputValue : (s.startRun).inputValue = s.inputValue := rfl
@[simp] theorem State.raise_width (x : Err) : (s.raise x).width = s.width := rfl
@[simp] theorem State.raise_inputValue (x : Err) : (s.raise x).inputValue = s.inputValue := rfl
@[simp] theorem State.deliver_width (v : Nat) : (s.deliver v).width = s.width := rfl
@[simp] theorem State.deliver_inputValue (v : Nat) : (s.deliver v).inputValue = s.inputValue := rfl
@[simp] theorem State.endRun_width : (s.endRun).width = s.width := rfl
@[simp] theorem State.endRun_inputValue : (s.endRun).inputValue = s.inputValue := rfl
@[simp] theorem State.iterate_width : (s.iterate).width = s.width := rfl
@[simp] theorem State.iterate_inputValue : (s.iterate).inputValue = s.inputValue := rfl
@[simp] theorem State.setReg_width (k : Fin 12) (v : Nat) : (s.setReg k v).width = s.width := rfl
@[simp] theorem State.setReg_inputValue (k : Fin 12) (v : Nat) : (s.setReg k v).inputValue = s.inputValue := rfl
@[simp] theorem State.advance_width : (s.advance).width = s.width := rfl
@[simp] theorem State.advance_inputValue : (s.advance).inputValue = s.inputValue := rfl
@[simp] theorem State.alone_width : (s.alone).width = s.width := rfl
@[simp] theorem State.alone_inputValue : (s.alone).inputValue = s.inputValue := rfl
@[simp] theorem State.resetEvent_width : (s.resetEvent).width = s.width := rfl

/-! Reset of a block of any capacity: every register reads 0, and both buffers read 0x00. -/

@[simp] theorem State.resetWith_reg (kb : Nat) (k : Fin 12) : (State.resetWith kb).reg k = 0 := by
  simp [State.resetWith, State.reg]

@[simp] theorem State.resetWith_kbytes (kb : Nat) : (State.resetWith kb).kbytes = kb := rfl
@[simp] theorem State.resetWith_phase (kb : Nat) : (State.resetWith kb).phase = .idle := rfl
@[simp] theorem State.resetWith_status (kb : Nat) : (State.resetWith kb).status = 0#32 := by
  simp [State.status, State.err, State.busy, State.resetWith]

end Sys2Proof.Machine
end

