-- ==== Sys2Proof/Laws/Ops.lean ====
section
/-! SUPPORT. One lemma for each shared operation that says everything it can do; proofs cite these and do not unfold
the operations. -/

namespace Sys2Proof.Machine

/-! Register ranges: W-bit registers and KBYTES-byte buffers agree. -/

theorem two_pow_width (kb : Nat) : 2 ^ width kb = 256 ^ kb := by
  rw [width, Nat.pow_mul]

/-- A value below `2^W` has an encoding of at most KBYTES bytes. -/
theorem bytelen_le_of_lt_width {v kb : Nat} (h : v < 2 ^ width kb) : bytelen v ≤ kb :=
  (bytelen_le_iff v kb).2 (two_pow_width kb ▸ h)

/-- The input value fits a register: `ILEN <= KBYTES` (`20_memory.md` R46). -/
theorem State.inputValue_lt {s : State} (h : s.ilen ≤ s.kbytes) : s.inputValue < 2 ^ s.width := by
  have h1 := os2ip_lt s.input
  rw [State.input, Memory.length_readBytes] at h1
  rw [State.width, two_pow_width]
  exact Nat.lt_of_lt_of_le h1 (Nat.pow_le_pow_right (by decide) h)

/-! Acceptance. -/

theorem State.accept_run {s : State} (h : s.phase = .run) (w : Word32) (body : State → State) :
    s.accept w body = s := by simp [State.accept, h]

theorem State.accept_idle {s : State} (h : s.phase = .idle) (w : Word32) (body : State → State) :
    s.accept w body = body (s.beginCommand w) := by simp [State.accept, h]

/-- A command written in RUN changes nothing (`43_host_interface.md` R114). -/
theorem exec_run {s : State} (h : s.phase = .run) (i : Instr) : exec i s = .next s := by
  cases i <;> simp [exec, execModpow, execEncrypt, execDecrypt, State.accept_run h]

/-- Everything a command can do in IDLE: the setup with its arguments, or its error. -/
theorem exec_idle {s : State} (h : s.phase = .idle) (i : Instr) :
    (∃ b e m, commandArgs i s = .ok (b, e, m) ∧ 1 ≤ m ∧
      exec i s = .next ((s.beginCommand (encode i)).setup b e m).startRun) ∨
    (∃ x, commandArgs i s = .error x ∧ exec i s = .next ((s.beginCommand (encode i)).raise x)) := by
  cases i with
  | modpow =>
    by_cases hm : s.reg IR.OPM = 0
    · refine .inr ⟨.invalidParameters, by simp [commandArgs, hm], ?_⟩
      simp [exec, execModpow, State.accept_idle h, acceptModpow, hm]
    · refine .inl ⟨s.reg IR.OPB, s.reg IR.OPE, s.reg IR.OPM, by simp [commandArgs, hm], by omega, ?_⟩
      simp [exec, execModpow, State.accept_idle h, acceptModpow, hm]
  | encrypt =>
    by_cases hm : s.inputValue < s.reg IR.N
    · refine .inl ⟨s.inputValue, s.reg IR.E, s.reg IR.N, by simp [commandArgs, Nat.not_le.2 hm], by omega, ?_⟩
      simp [exec, execEncrypt, State.accept_idle h, acceptEncrypt, hm]
    · refine .inr ⟨.messageTooLong, by simp [commandArgs, Nat.not_lt.1 hm], ?_⟩
      simp [exec, execEncrypt, State.accept_idle h, acceptEncrypt, hm]
  | decrypt =>
    rw [exec, execDecrypt, State.accept_idle h, acceptDecrypt]
    by_cases hm : s.reg IR.P * s.reg IR.Q = 0 ∨ 2 ^ s.width ≤ s.reg IR.P * s.reg IR.Q
    · refine .inr ⟨.invalidParameters, ?_, ?_⟩
      · rw [commandArgs, if_neg (by omega)]
      · rw [if_pos (by simpa using hm)]
    · refine .inl ⟨s.inputValue, s.reg IR.D, s.reg IR.P * s.reg IR.Q, ?_, by omega, ?_⟩
      · rw [commandArgs, if_pos (by omega)]
      · rw [if_neg (by simpa using hm)]
        rfl

/-- The setup's outcome in the words of `Accepted`. -/
theorem accepted_setup (s : State) (w : Word32) (b e m : Nat) :
    Accepted w b e m s ((s.beginCommand w).setup b e m).startRun := by
  simp [Accepted, SameInputs, SameOutputs]

/-- The error completion's outcome in the words of `ErrorCompletion`. -/
theorem errorCompletion_raise {s : State} (h : s.phase = .idle) (w : Word32) (x : Err) :
    ErrorCompletion w x s ((s.beginCommand w).raise x) := by
  simp +contextual [ErrorCompletion, SameInputs, h, Memory.read]

/-! The engine. -/

theorem engineStep_idle {s : State} (h : s.phase = .idle) : engineStep s = .next s := by simp [engineStep, h]

theorem engineStep_iterate {s : State} (h : s.phase = .run) (hx : 0 < s.wx) (hm : 1 ≤ s.wm) :
    engineStep s = .next s.iterate := by
  simp [engineStep, h, hx, iterationStep, Nat.ne_of_gt hm]

theorem engineStep_finish {s : State} (h : s.phase = .run) (hx : s.wx = 0) (hl : bytelen s.wr ≤ s.kbytes) :
    engineStep s = .next (s.deliver s.wr).endRun := by
  simp [engineStep, h, hx, finishStep, Nat.not_lt.2 hl]

/-- Everything the engine's turn can do when it answers a next state. -/
theorem engineStep_cases {s t : State} (h : engineStep s = .next t) :
    (s.phase = .idle ∧ t = s) ∨
    (s.phase = .run ∧ 0 < s.wx ∧ 1 ≤ s.wm ∧ t = s.iterate) ∨
    (s.phase = .run ∧ s.wx = 0 ∧ bytelen s.wr ≤ s.kbytes ∧ t = (s.deliver s.wr).endRun) := by
  rw [engineStep] at h
  split at h
  · next hp => exact .inl ⟨hp, by simpa using h.symm⟩
  · next hp =>
    split at h
    · next hx =>
      rw [iterationStep] at h
      split at h
      · cases h
      · exact .inr (.inl ⟨hp, hx, by omega, by simpa using h.symm⟩)
    · next hx =>
      rw [finishStep] at h
      split at h
      · cases h
      · exact .inr (.inr ⟨hp, by omega, by omega, by simpa using h.symm⟩)

/-- The finish step's outcome in the words of `Finished`. -/
theorem finished_finish (s : State) (v : Nat) : Finished v s (s.deliver v).endRun := by
  refine ⟨by simp, by simp, fun i hi => ?_, fun i hi => ?_, by simp, by simp, by simp, by simp, by simp, by simp,
    by simp, by simp⟩
  · simp [Memory.read_ofBytes, i2ospMin, List.getD_eq_getElem?_getD, hi]
  · simp only [State.endRun_obuf, State.deliver_obuf, Memory.read_ofBytes]
    exact List.getD_eq_default _ _ (by simpa using hi)

/-- The delivered bytes are the output sequence. -/
theorem State.deliver_output (s : State) (v : Nat) : (s.deliver v).output = i2ospMin v := by
  rw [State.output, State.deliver_obuf, State.deliver_olen, ← length_i2ospMin v, Memory.readBytes_ofBytes]

/-! The host's accesses. -/

/-- An access leaves the engine's side and the outputs alone (`20_memory.md` R59, `43_host_interface.md` R115). -/
theorem hostAccess_frame (t : HostTxn) (s : State) :
    (hostAccess t s).wb = s.wb ∧ (hostAccess t s).wx = s.wx ∧ (hostAccess t s).wm = s.wm ∧
    (hostAccess t s).wr = s.wr ∧ (hostAccess t s).op = s.op ∧ (hostAccess t s).phase = s.phase ∧
    (hostAccess t s).done = s.done ∧ (hostAccess t s).errcode = s.errcode ∧ (hostAccess t s).obuf = s.obuf ∧
    (hostAccess t s).olen = s.olen ∧ (hostAccess t s).reg IR.RES = s.reg IR.RES ∧
    (hostAccess t s).kbytes = s.kbytes ∧ (hostAccess t s).pending = s.pending := by
  cases t with
  | rdCtl r => simp [hostAccess, State.reg]
  | rdIR k => simp [hostAccess, State.reg]
  | rdIBUF i => simp [hostAccess, State.reg]
  | rdOBUF i => simp [hostAccess, State.reg]
  | wrCtl r v => simp only [hostAccess, writeCtl]; split <;> [split; skip] <;> simp [State.reg]
  | wrIBUF i b => simp only [hostAccess, writeIBUF]; split <;> simp [State.reg]
  | wrIR k v =>
    simp only [hostAccess, writeIR]
    split
    · next h => simp [Fin.ext_iff]; omega
    · simp

/-- An access changes a register only by `WrIR` of that register (`43_host_interface.md` R107). -/
theorem hostAccess_reg (t : HostTxn) (s : State) (k : Fin 12) :
    (hostAccess t s).reg k = s.reg k ∨
      ∃ v, t = .wrIR (Fin.castLE (by decide) k) v ∧ k.val < 11 ∧ (hostAccess t s).reg k = v := by
  cases t with
  | rdCtl r => exact .inl rfl
  | rdIR k => exact .inl rfl
  | rdIBUF i => exact .inl rfl
  | rdOBUF i => exact .inl rfl
  | wrCtl r v => left; simp only [hostAccess, writeCtl]; split <;> [split; skip] <;> simp [State.reg]
  | wrIBUF i b => left; simp only [hostAccess, writeIBUF]; split <;> simp [State.reg]
  | wrIR j v =>
    simp only [hostAccess, writeIR]
    split
    · next h =>
      by_cases hk : k = ⟨j.val, Nat.lt_succ_of_lt h⟩
      · right
        exact ⟨v, by rw [hk]; rfl, by rw [hk]; exact h, by simp [hk]⟩
      · left; simp [hk]
    · exact .inl rfl

/-- An access changes `IBUF` only by `WrIBUF`, inside the capacity (`43_host_interface.md` R109). -/
theorem hostAccess_ibuf (t : HostTxn) (s : State) :
    (hostAccess t s).ibuf = s.ibuf ∨
      ∃ i b, t = .wrIBUF i b ∧ i.val < s.kbytes ∧ (hostAccess t s).ibuf = Memory.write s.ibuf i.val b := by
  cases t with
  | rdCtl r => exact .inl rfl
  | rdIR k => exact .inl rfl
  | rdIBUF i => exact .inl rfl
  | rdOBUF i => exact .inl rfl
  | wrCtl r v => left; simp only [hostAccess, writeCtl]; split <;> [split; skip] <;> rfl
  | wrIR j v => left; simp only [hostAccess, writeIR]; split <;> rfl
  | wrIBUF i b =>
    simp only [hostAccess, writeIBUF]
    split
    · next h => exact .inr ⟨i, b, rfl, h, rfl⟩
    · exact .inl rfl

/-- An access changes `ILEN` only by `WrCtl(ILEN, v)` with a legal length (`10_state.md` R38). -/
theorem hostAccess_ilen (t : HostTxn) (s : State) :
    (hostAccess t s).ilen = s.ilen ∨
      ∃ v, t = .wrCtl CTL.ILEN v ∧ v.toNat ≤ s.kbytes ∧ (hostAccess t s).ilen = v.toNat := by
  cases t with
  | rdCtl r => exact .inl rfl
  | rdIR k => exact .inl rfl
  | rdIBUF i => exact .inl rfl
  | rdOBUF i => exact .inl rfl
  | wrIR j v => left; simp only [hostAccess, writeIR]; split <;> rfl
  | wrIBUF i b => left; simp only [hostAccess, writeIBUF]; split <;> rfl
  | wrCtl r v =>
    simp only [hostAccess, writeCtl]
    split
    · next hr =>
      split
      · next hv => exact .inr ⟨v, by rw [hr], hv, rfl⟩
      · exact .inl rfl
    · exact .inl rfl

/-! Acceptance, in the words of `commandArgs`. -/

theorem acceptIllegal_idle {s : State} {w : Word32} (h : s.phase = .idle) :
    acceptIllegal w s = (s.beginCommand w).raise .illegalCommand := by
  simp [acceptIllegal, State.accept_idle h]

/-- A command whose checks pass reaches the setup, with a modulus of at least 1 (`40_modpow_engine.md` R79). -/
theorem exec_ok {i : Instr} {s : State} {b e m : Nat} (hi : s.phase = .idle) (h : commandArgs i s = .ok (b, e, m)) :
    1 ≤ m ∧ exec i s = .next ((s.beginCommand (encode i)).setup b e m).startRun := by
  rcases exec_idle hi i with ⟨b', e', m', h', hm, hx⟩ | ⟨x, h', hx⟩
  · rw [h] at h'; cases h'; exact ⟨hm, hx⟩
  · rw [h] at h'; cases h'

/-- A command whose checks fail raises its error (`60_exceptions.md` R127). -/
theorem exec_error {i : Instr} {s : State} {x : Err} (hi : s.phase = .idle) (h : commandArgs i s = .error x) :
    exec i s = .next ((s.beginCommand (encode i)).raise x) := by
  rcases exec_idle hi i with ⟨b', e', m', h', hm, hx⟩ | ⟨x, h', hx⟩
  · rw [h] at h'; cases h'
  · rw [h] at h'; cases h'; exact hx

/-- The exponent and the modulus of a setup are register values: below `2^W`. -/
theorem commandArgs_lt {s : State} (h : ∀ k, s.reg k < 2 ^ s.width) {i : Instr} {b e m : Nat}
    (hc : commandArgs i s = .ok (b, e, m)) : e < 2 ^ s.width ∧ m < 2 ^ s.width := by
  cases i <;> simp only [commandArgs] at hc <;> split at hc <;> cases hc
  · exact ⟨h _, h _⟩
  · exact ⟨h _, h _⟩
  · next hh => exact ⟨h _, hh.2⟩

/-- A command always answers a next state. -/
theorem exec_next (i : Instr) (s : State) : ∃ t, exec i s = .next t := by cases i <;> exact ⟨_, rfl⟩

/-- The engine refuses nothing: its turn answers a next state or a fault. -/
theorem engineStep_ne_refused (s : State) (r : Refusal) : engineStep s ≠ .refused r := by
  unfold engineStep iterationStep finishStep
  repeat' split
  all_goals simp

/-! What leaves the inputs alone. -/

theorem SameInputs.refl (s : State) : SameInputs s s := by simp [SameInputs]

theorem SameOutputs.refl (s : State) : SameOutputs s s := by simp [SameOutputs]

theorem exec_sameInputs {i : Instr} {s t : State} (h : exec i s = .next t) : SameInputs s t := by
  cases hp : s.phase with
  | run => rw [exec_run hp] at h; cases h; exact SameInputs.refl _
  | idle =>
    rcases exec_idle hp i with ⟨b, e, m, hc, hm, hx⟩ | ⟨x, hc, hx⟩ <;> rw [hx] at h <;> cases h
    · simp [SameInputs]
    · simp +contextual [SameInputs]

theorem acceptIllegal_sameInputs (w : Word32) (s : State) : SameInputs s (acceptIllegal w s) := by
  cases hp : s.phase with
  | run => rw [acceptIllegal, State.accept_run hp]; exact SameInputs.refl _
  | idle => rw [acceptIllegal_idle hp]; simp +contextual [SameInputs]

theorem engineStep_sameInputs {s t : State} (h : engineStep s = .next t) : SameInputs s t := by
  rcases engineStep_cases h with ⟨_, rfl⟩ | ⟨hr, _, _, rfl⟩ | ⟨hr, _, _, rfl⟩ <;> simp +contextual [SameInputs]

/-! A register write and the two writes of `RES` commute. -/

theorem setReg_raise (s : State) (k : Fin 12) (v : Nat) (w : Word32) (x : Err) (hk : k ≠ IR.RES) :
    ((s.setReg k v).beginCommand w).raise x = ((s.beginCommand w).raise x).setReg k v := by
  have hk' : k.val ≠ 11 := fun e => hk (Fin.ext e)
  simp only [State.setReg, State.beginCommand, State.raise]
  congr 1
  rw [Vector.set_comm]; exact hk'

theorem setReg_deliver (s : State) (k : Fin 12) (v x : Nat) (hk : k ≠ IR.RES) :
    (s.setReg k v).deliver x = (s.deliver x).setReg k v := by
  have hk' : k.val ≠ 11 := fun e => hk (Fin.ext e)
  simp only [State.setReg, State.deliver]
  congr 1
  rw [Vector.set_comm]; exact hk'

/-! The status word (`10_state.md` R35). -/

theorem State.status_toNat (s : State) :
    s.status.toNat = (if s.phase = .run then 1 else 0) + 2 * (if s.done = true then 1 else 0) +
      4 * (if s.errcode = 0#4 then 0 else 1) + 16 * s.errcode.toNat := by
  have : ∀ (e : BitVec 4) (a b : Bool),
      (0#24 ++ e ++ 0#1 ++ BitVec.ofBool (e != 0#4) ++ BitVec.ofBool a ++ BitVec.ofBool b).toNat =
        (if b = true then 1 else 0) + 2 * (if a = true then 1 else 0) + 4 * (if e = 0#4 then 0 else 1) +
          16 * e.toNat := by decide
  simp [State.status, State.err, this, State.busy]

theorem status_of_accepted {w : Word32} {b e m : Nat} {s t : State} (h : Accepted w b e m s t) :
    t.status = 0x00000001#32 := by
  obtain ⟨-, hd, he, hp, -⟩ := h
  simp [State.status, State.busy, State.err, hd, he, hp]

theorem status_of_error {w : Word32} {s t : State} {x : Err} (h : ErrorCompletion w x s t) :
    t.status = match x with
      | .messageTooLong => 0x00000016#32
      | .invalidParameters => 0x00000026#32
      | .illegalCommand => 0x00000036#32 := by
  obtain ⟨-, hd, he, hp, -⟩ := h
  cases x <;> simp [State.status, State.busy, State.err, hd, he, hp, Err.code]

end Sys2Proof.Machine
end

