-- ==== Sys2Proof/Laws/Step.lean ====
section
/-! SUPPORT. What one step does, by the head of `pending`, and runs of several steps. -/

namespace Sys2Proof.Machine

/-! `fetch` and `step` by the head of `pending`. -/

theorem step_command {s : State} {w : Word32} {i : Instr} {rest : List Event}
    (h : s.pending = commandEvent w :: rest) (hd : decode w = .command i) : step s = exec i s.advance := by
  simp [step, fetch, h, commandEvent, fetchTxn, HostTxn.expressible, hd]

theorem step_illegal {s : State} {w : Word32} {rest : List Event}
    (h : s.pending = commandEvent w :: rest) (hd : decode w = .illegal) :
    step s = .next (acceptIllegal w s.advance) := by
  simp [step, fetch, h, commandEvent, fetchTxn, HostTxn.expressible, hd]

/-- A transaction that is no write to `CMD`. -/
def isAccess (t : HostTxn) : Prop := ∀ w, t ≠ .wrCtl CTL.CMD w

theorem step_access {s : State} {t : HostTxn} {rest : List Event} (h : s.pending = .host t :: rest)
    (ht : isAccess t) (he : t.expressible s.kbytes = true) : step s = .next (hostAccess t s.advance) := by
  cases t with
  | wrCtl r v =>
    have hr : r ≠ CTL.CMD := fun e => ht v (by rw [e])
    simp [step, fetch, h, fetchTxn, he, hr]
  | _ => simp [step, fetch, h, fetchTxn, he]

theorem step_inexpressible {s : State} {t : HostTxn} {rest : List Event} (h : s.pending = .host t :: rest)
    (he : t.expressible s.kbytes = false) : step s = .refused .valueTooWide := by
  simp [step, fetch, h, fetchTxn, he]

theorem step_engine {s : State} {rest : List Event} (h : s.pending = .engine :: rest) :
    step s = engineStep s.advance := by simp [step, fetch, h]

theorem step_nil {s : State} (h : s.pending = []) : step s = engineStep s.advance := by simp [step, fetch, h]

theorem step_reset {s : State} {rest : List Event} (h : s.pending = .reset :: rest) :
    step s = .next s.advance.resetEvent := by simp [step, fetch, h]

theorem advance_eq {s : State} {e : Event} {rest : List Event} (h : s.pending = e :: rest) :
    s.advance = { s with pending := rest, reply := none } := by simp [State.advance, h]

/-- The engine's turn: nothing is pending, or an engine slot is at the head (log 3). -/
theorem step_turn {s : State} (h : s.pending = [] ∨ ∃ rest, s.pending = .engine :: rest) :
    step s = engineStep s.advance := by
  rcases h with h | ⟨r, h⟩
  · exact step_nil h
  · exact step_engine h

/-- Everything one step can do when it answers a next state. -/
theorem step_cases {s t : State} (h : step s = .next t) :
    (∃ w i rest, s.pending = commandEvent w :: rest ∧ decode w = .command i ∧ exec i s.advance = .next t) ∨
    (∃ w rest, s.pending = commandEvent w :: rest ∧ decode w = .illegal ∧ t = acceptIllegal w s.advance) ∨
    (∃ x rest, s.pending = .host x :: rest ∧ isAccess x ∧ x.expressible s.kbytes = true ∧
      t = hostAccess x s.advance) ∨
    ((s.pending = [] ∨ ∃ rest, s.pending = .engine :: rest) ∧ engineStep s.advance = .next t) ∨
    (∃ rest, s.pending = .reset :: rest ∧ t = s.advance.resetEvent) := by
  cases hp : s.pending with
  | nil => rw [step_nil hp] at h; exact .inr (.inr (.inr (.inl ⟨.inl rfl, h⟩)))
  | cons e rest =>
    cases e with
    | engine => rw [step_engine hp] at h; exact .inr (.inr (.inr (.inl ⟨.inr ⟨rest, rfl⟩, h⟩)))
    | reset =>
      rw [step_reset hp] at h
      exact .inr (.inr (.inr (.inr ⟨rest, rfl, by simpa using h.symm⟩)))
    | host x =>
      by_cases hc : isAccess x
      · cases he : x.expressible s.kbytes with
        | false => rw [step_inexpressible hp he] at h; cases h
        | true =>
          rw [step_access hp hc he] at h
          exact .inr (.inr (.inl ⟨x, rest, rfl, hc, he, by simpa using h.symm⟩))
      · obtain ⟨w, rfl⟩ : ∃ w, x = .wrCtl CTL.CMD w := by simpa [isAccess] using hc
        cases hd : decode w with
        | command i => rw [step_command hp hd] at h; exact .inl ⟨w, i, rest, rfl, hd, h⟩
        | illegal =>
          rw [step_illegal hp hd] at h
          exact .inr (.inl ⟨w, rest, rfl, hd, by simpa using h.symm⟩)

/-! Runs. -/

@[simp] theorem runs_zero (s t : State) : runs 0 s t ↔ s = t :=
  ⟨fun h => by injection h, fun h => h ▸ rfl⟩

theorem runs_succ {s t u : State} {n : Nat} (h : step s = .next t) : runs (n + 1) s u ↔ runs n t u := by
  have h' : core.step s = .next t := h
  simp [runs, Host.Core.run, h']

theorem runs_add {s t u : State} {m n : Nat} (h : runs m s t) (h' : runs n t u) : runs (m + n) s u := by
  induction m generalizing s with
  | zero =>
    rw [runs_zero] at h
    subst h
    simpa using h'
  | succ m ih =>
    have e : m + 1 + n = m + n + 1 := by omega
    rw [e]
    cases hs : step s with
    | next v => rw [runs_succ hs] at h ⊢; exact ih h
    | fault r =>
      have hs' : core.step s = .fault r := hs
      simp [runs, Host.Core.run, hs'] at h
    | refused r =>
      have hs' : core.step s = .refused r := hs
      simp [runs, Host.Core.run, hs'] at h

theorem runs_one {s t : State} (h : step s = .next t) : runs 1 s t := (runs_succ h).2 (by simp)

theorem runs_two {s t u : State} (h : step s = .next t) (h' : step t = .next u) : runs 2 s u :=
  (runs_succ h).2 (runs_one h')

/-- A run of `n + 1` steps is one step and a run of `n`. -/
theorem runs_succ_elim {s u : State} {n : Nat} (h : runs (n + 1) s u) : ∃ t, step s = .next t ∧ runs n t u := by
  cases hs : step s with
  | next t => exact ⟨t, rfl, (runs_succ hs).1 h⟩
  | fault r =>
    have hs' : core.step s = .fault r := hs
    simp [runs, Host.Core.run, hs'] at h
  | refused r =>
    have hs' : core.step s = .refused r := hs
    simp [runs, Host.Core.run, hs'] at h

/-- No step reads `reply`. -/
theorem runs_reply {s u : State} {n : Nat} (hn : 1 ≤ n) : runs n s u ↔ runs n { s with reply := none } u := by
  obtain ⟨m, rfl⟩ : ∃ m, n = m + 1 := ⟨n - 1, by omega⟩
  have h : core.step s = core.step { s with reply := none } := rfl
  simp only [runs, Host.Core.run, h]

theorem advance_of_quiet {s : State} (h : s.pending = []) (h' : s.reply = none) : s.advance = s := by
  cases s; simp_all [State.advance]

/-- A step takes the head of `pending` and never changes KBYTES. -/
theorem step_kbytes_pending {s t : State} (hs : step s = .next t) :
    t.kbytes = s.kbytes ∧ t.pending = s.pending.tail := by
  rcases step_cases hs with ⟨w, i, rest, hp, hd, hx⟩ | ⟨w, rest, hp, hd, rfl⟩ | ⟨x, rest, hp, hc, he, rfl⟩ | ⟨hp, he⟩ |
    ⟨rest, hp, rfl⟩
  · exact ⟨(exec_sameInputs hx).2.2.2.1, (exec_sameInputs hx).2.2.2.2.1⟩
  · exact ⟨(acceptIllegal_sameInputs w _).2.2.2.1, (acceptIllegal_sameInputs w _).2.2.2.2.1⟩
  · exact (hostAccess_frame x s.advance).2.2.2.2.2.2.2.2.2.2.2
  · exact ⟨(engineStep_sameInputs he).2.2.2.1, (engineStep_sameInputs he).2.2.2.2.1⟩
  · exact ⟨rfl, rfl⟩

end Sys2Proof.Machine
end

