-- ==== Sys2Proof/Laws/Engine.lean ====
section
/-! SUPPORT. The engine left to itself: its iterations and its finish as runs (`40_modpow_engine.md` R80 to R84). -/

namespace Sys2Proof.Machine

/-- `n` iteration steps. -/
def iter (s : State) : Nat → State
  | 0 => s
  | n + 1 => (iter s n).iterate

/-- What iterations leave alone, and the working exponent after `n` of them. -/
theorem iter_fields (s : State) (n : Nat) :
    (iter s n).phase = s.phase ∧ (iter s n).wm = s.wm ∧ (iter s n).wx = s.wx / 2 ^ n ∧ (iter s n).done = s.done ∧
    (iter s n).errcode = s.errcode ∧ (iter s n).op = s.op ∧ (iter s n).kbytes = s.kbytes ∧
    (iter s n).pending = s.pending ∧ (iter s n).reply = s.reply ∧ (iter s n).ibuf = s.ibuf ∧
    (iter s n).ilen = s.ilen ∧ ∀ k, (iter s n).reg k = s.reg k := by
  induction n with
  | zero => simp [iter]
  | succ n ih => simp_all [iter, Nat.shiftRight_eq_div_pow, Nat.pow_succ, Nat.div_div_eq_div_mul]

/-- One iteration keeps `(WR * WB^WX) mod WM` (`40_modpow_engine.md` R83). -/
theorem iterate_residue (u : State) :
    (u.iterate.wr * u.iterate.wb ^ u.iterate.wx) % u.wm = (u.wr * u.wb ^ u.wx) % u.wm := by
  simp only [State.iterate_wr, State.iterate_wb, State.iterate_wx, Nat.shiftRight_eq_div_pow, pow_one]
  have key : (u.wb * u.wb % u.wm) ^ (u.wx / 2) ≡ (u.wb * u.wb) ^ (u.wx / 2) [MOD u.wm] := (Nat.mod_modEq _ _).pow _
  have e : u.wb ^ u.wx = u.wb ^ (u.wx % 2) * (u.wb * u.wb) ^ (u.wx / 2) := by
    rw [← pow_two, ← pow_mul, ← pow_add]; congr 1; omega
  change _ ≡ _ [MOD u.wm]
  rw [e, ← mul_assoc]
  refine Nat.ModEq.mul ?_ key
  rcases Nat.mod_two_eq_zero_or_one u.wx with h | h
  · simp [h]; rfl
  · simp [h]; exact Nat.mod_modEq _ _

theorem iter_residue (s : State) (n : Nat) :
    ((iter s n).wr * (iter s n).wb ^ (iter s n).wx) % s.wm = (s.wr * s.wb ^ s.wx) % s.wm := by
  induction n with
  | zero => rfl
  | succ n ih =>
    have h := iterate_residue (iter s n)
    rw [(iter_fields s n).2.1] at h
    rw [← ih]
    exact h

/-- The residue right after `setup(b, e, m)`. -/
theorem setup_residue (b e m : Nat) : ((1 % m) * (b % m) ^ e) % m = b ^ e % m := by
  change _ ≡ _ [MOD m]
  have a1 : 1 % m ≡ 1 [MOD m] := Nat.mod_modEq _ _
  have a2 : (b % m) ^ e ≡ b ^ e [MOD m] := (Nat.mod_modEq _ _).pow _
  simpa using a1.mul a2

/-- The setup establishes the loop invariant (`40_modpow_engine.md` R83). -/
theorem loopInvariant_setup (s : State) (b e m : Nat) : loopInvariant b e m (s.setup b e m) :=
  ⟨rfl, setup_residue b e m⟩

/-- An iteration step keeps the loop invariant (`40_modpow_engine.md` R83). -/
theorem loopInvariant_iterate {s : State} {b e m : Nat} (h : loopInvariant b e m s) :
    loopInvariant b e m s.iterate := by
  obtain ⟨rfl, h⟩ := h
  exact ⟨rfl, (iterate_residue s).trans h⟩

/-- So do `n` iteration steps. -/
theorem loopInvariant_iter {s : State} {b e m : Nat} (h : loopInvariant b e m s) (n : Nat) :
    loopInvariant b e m (iter s n) := by
  induction n with
  | zero => exact h
  | succ n ih => exact loopInvariant_iterate ih

theorem iter_wr_lt (s : State) (n : Nat) (h : s.wr < s.wm) : (iter s n).wr < s.wm := by
  induction n with
  | zero => exact h
  | succ n ih =>
    simp only [iter, State.iterate_wr, (iter_fields s n).2.1]
    split
    · exact Nat.mod_lt _ (by omega)
    · exact ih

theorem div_pos_of_lt_bitlen {v n : Nat} (h : n < bitlen v) : 0 < v / 2 ^ n := by
  have : ¬ bitlen v ≤ n := by omega
  rw [bitlen_le_iff] at this
  exact Nat.div_pos (by omega) (Nat.pow_pos (by decide))

theorem div_bitlen (v : Nat) : v / 2 ^ bitlen v = 0 := Nat.div_eq_of_lt (lt_two_pow_bitlen v)

/-- The engine alone takes the iterations one a step, as many as the working exponent has bits. -/
theorem runs_iter {s : State} (hr : s.phase = .run) (hm : 1 ≤ s.wm) (hp : s.pending = []) (hq : s.reply = none)
    (n : Nat) (hn : n ≤ bitlen s.wx) : runs n s (iter s n) := by
  induction n with
  | zero => simp [iter]
  | succ n ih =>
    refine runs_add (ih (by omega)) ?_
    obtain ⟨h1, h2, h3, -, -, -, -, h4, h5, -⟩ := iter_fields s n
    refine runs_one ?_
    rw [step_nil (h4 ▸ hp), advance_of_quiet (h4 ▸ hp) (h5 ▸ hq)]
    exact engineStep_iterate (h1 ▸ hr) (h3 ▸ div_pos_of_lt_bitlen hn) (h2 ▸ hm)

/-- Then one finish step delivers the residue. -/
theorem runs_finish {s : State} (hr : s.phase = .run) (hm : 1 ≤ s.wm) (hp : s.pending = []) (hq : s.reply = none)
    (hlt : s.wr < s.wm) (hw : s.wm ≤ 2 ^ s.width) :
    runs (bitlen s.wx + 1) s ((iter s (bitlen s.wx)).deliver ((s.wr * s.wb ^ s.wx) % s.wm)).endRun := by
  refine runs_add (runs_iter hr hm hp hq _ (Nat.le_refl _)) (runs_one ?_)
  obtain ⟨h1, h2, h3, -, -, -, h6, h4, h5, -⟩ := iter_fields s (bitlen s.wx)
  have hv : (iter s (bitlen s.wx)).wr = (s.wr * s.wb ^ s.wx) % s.wm := by
    rw [← iter_residue s (bitlen s.wx), h3, div_bitlen, pow_zero, mul_one, Nat.mod_eq_of_lt (iter_wr_lt s _ hlt)]
  rw [step_nil (h4 ▸ hp), advance_of_quiet (h4 ▸ hp) (h5 ▸ hq), ← hv]
  refine engineStep_finish (h1 ▸ hr) (by rw [h3, div_bitlen]) ?_
  rw [h6]
  exact bytelen_le_of_lt_width (Nat.lt_of_lt_of_le (iter_wr_lt s _ hlt) hw)

end Sys2Proof.Machine
end

