-- ==== Sys2Proof/Laws/Invariant.lean ====
section
/-! SUPPORT. Each shared operation keeps `Inv` (`10_state.md` R44): one lemma for each operation. -/

namespace Sys2Proof.Machine

/-- `Inv` says nothing of what is pending or has been returned. -/
theorem inv_pending {s : State} (h : Inv s) (es : List Event) (r : Option Reply) :
    Inv { s with pending := es, reply := r } :=
  ⟨h.kbytes_range, h.reg_lt, h.working_lt, h.ibuf_ok, h.obuf_ok, h.idle_clear, h.run_ok, h.output_ok, h.lengths,
    h.error_ok, h.done_idle, h.errcode_le⟩

theorem inv_access {s : State} (h : Inv s) {x : HostTxn} (he : x.expressible s.kbytes = true) :
    Inv (hostAccess x s) := by
  obtain ⟨f1, f2, f3, f4, f5, f6, f7, f8, f9, f10, f11, f12, f13⟩ := hostAccess_frame x s
  have fw : (hostAccess x s).width = s.width := by rw [State.width, f12]; rfl
  have fo : (hostAccess x s).output = s.output := by rw [State.output, f9, f10]; rfl
  constructor
  · rw [f12]; exact h.kbytes_range
  · intro k; rw [fw]
    rcases hostAccess_reg x s k with e | ⟨v, rfl, hk, e⟩
    · rw [e]; exact h.reg_lt k
    · rw [e]; simpa [HostTxn.expressible, State.width] using he
  · rw [f1, f2, f3, f4, fw]; exact h.working_lt
  · rw [f12]
    rcases hostAccess_ibuf x s with e | ⟨i, b, rfl, hi, e⟩
    · rw [e]; exact h.ibuf_ok
    · rw [e]; exact ⟨Memory.wf_write h.ibuf_ok.1 _ _, Memory.below_write h.ibuf_ok.2 hi _⟩
  · rw [f9, f12]; exact h.obuf_ok
  · rw [f1, f2, f3, f4, f6]; exact h.idle_clear
  · rw [f1, f3, f4, f5, f6, f7, f8]; exact h.run_ok
  · rw [f9, f10, f11, fo]; exact h.output_ok
  · rw [f10, f12]
    rcases hostAccess_ilen x s with e | ⟨v, rfl, hv, e⟩
    · rw [e]; exact h.lengths
    · rw [e]; exact ⟨hv, h.lengths.2⟩
  · rw [f6, f7, f8, f10, f11]; exact h.error_ok
  · rw [f6, f7]; exact h.done_idle
  · rw [f8]; exact h.errcode_le

theorem inv_raise {s : State} (h : Inv s) (hi : s.phase = .idle) (w : Word32) (x : Err) :
    Inv ((s.beginCommand w).raise x) where
  kbytes_range := h.kbytes_range
  reg_lt k := by
    rw [State.raise_reg]; split
    · exact Nat.pow_pos (by decide)
    · exact h.reg_lt k
  working_lt := h.working_lt
  ibuf_ok := h.ibuf_ok
  obuf_ok := ⟨rfl, rfl⟩
  idle_clear := h.idle_clear
  run_ok hr := by simp [hi] at hr
  output_ok := by simp [State.output, Memory.readBytes, i2ospMin, Memory.read]
  lengths := ⟨h.lengths.1, Nat.zero_le _⟩
  error_ok _ := ⟨rfl, hi, by simp, rfl⟩
  done_idle _ := hi
  errcode_le := by cases x <;> simp [Err.code]

theorem inv_startRun {s : State} (h : Inv s) (i : Instr) {b e m : Nat} (he : e < 2 ^ s.width) (hm : 1 ≤ m)
    (hw : m < 2 ^ s.width) : Inv ((s.beginCommand (encode i)).setup b e m).startRun where
  kbytes_range := h.kbytes_range
  reg_lt := h.reg_lt
  working_lt := by
    have h1 : b % m < m := Nat.mod_lt _ hm
    have h2 : 1 % m < m := Nat.mod_lt _ hm
    simp; omega
  ibuf_ok := h.ibuf_ok
  obuf_ok := h.obuf_ok
  idle_clear hi := by simp at hi
  run_ok _ := ⟨hm, Nat.mod_lt _ hm, Nat.mod_lt _ hm, rfl, rfl, i, rfl⟩
  output_ok := h.output_ok
  lengths := h.lengths
  error_ok hh := absurd rfl hh
  done_idle hh := by simp at hh
  errcode_le := by simp

theorem inv_iterate {s : State} (h : Inv s) (hr : s.phase = .run) : Inv s.iterate := by
  obtain ⟨hm, hb, hw, hd, he, hop⟩ := h.run_ok hr
  obtain ⟨w1, w2, w3, w4⟩ := h.working_lt
  have a1 : s.iterate.wb < s.wm := Nat.mod_lt _ hm
  have a2 : s.iterate.wr < s.wm := by
    rw [State.iterate_wr]; split
    · exact Nat.mod_lt _ hm
    · exact hw
  exact {
    kbytes_range := h.kbytes_range
    reg_lt := h.reg_lt
    ibuf_ok := h.ibuf_ok
    obuf_ok := h.obuf_ok
    working_lt := ⟨by rw [State.iterate_width]; omega, by
      rw [State.iterate_width, State.iterate_wx, Nat.shiftRight_eq_div_pow]
      exact Nat.lt_of_le_of_lt (Nat.div_le_self _ _) w2, w3, by rw [State.iterate_width]; omega⟩
    idle_clear := fun hi => by simp [hr] at hi
    run_ok := fun _ => ⟨hm, a1, a2, hd, he, hop⟩
    output_ok := h.output_ok
    lengths := h.lengths
    error_ok := h.error_ok
    done_idle := h.done_idle
    errcode_le := h.errcode_le }

theorem inv_finish {s : State} (h : Inv s) (hr : s.phase = .run) : Inv (s.deliver s.wr).endRun := by
  obtain ⟨hm, hb, hw, hd, he, hop⟩ := h.run_ok hr
  have hl := bytelen_le_of_lt_width h.working_lt.2.2.2
  have hout : (s.deliver s.wr).endRun.output = i2ospMin s.wr := State.deliver_output s s.wr
  exact {
    kbytes_range := h.kbytes_range
    reg_lt := fun k => by
      simp only [State.endRun_reg, State.deliver_reg]; split
      · exact h.working_lt.2.2.2
      · exact h.reg_lt k
    working_lt := by simp
    ibuf_ok := h.ibuf_ok
    obuf_ok := ⟨Memory.wf_ofBytes _, Memory.below_ofBytes _ (by simpa using hl)⟩
    idle_clear := fun _ => ⟨rfl, rfl, rfl, rfl⟩
    run_ok := fun hh => by simp at hh
    output_ok := ⟨by simp, by rw [hout]; simp, fun i hi => (finished_finish s s.wr).2.2.2.1 i hi, by
      rw [hout, os2ip_i2ospMin]; simp⟩
    lengths := ⟨h.lengths.1, hl⟩
    error_ok := fun hh => absurd he hh
    done_idle := fun _ => rfl
    errcode_le := h.errcode_le }

/-- Under `Inv` the engine's turn never stops. -/
theorem engineStep_next {s : State} (h : Inv s) : ∃ t, engineStep s = .next t := by
  cases hp : s.phase with
  | idle => exact ⟨_, engineStep_idle hp⟩
  | run =>
    by_cases hx : 0 < s.wx
    · exact ⟨_, engineStep_iterate hp hx (h.run_ok hp).1⟩
    · exact ⟨_, engineStep_finish hp (by omega) (bytelen_le_of_lt_width h.working_lt.2.2.2)⟩

end Sys2Proof.Machine
end

