-- ==== Sys2Proof/Laws/PerInstr.lean ====
section
/-! SUPPORT. The family `Encoding`: what holds of every command as syntax, one lemma per constructor. -/

namespace Sys2Proof.Laws.Encoding

/-- A command is well formed, decodes from its own word, and its row of the opcode table selects its word and no other. -/
def Statement (i : Instr) : Prop :=
  i.wellFormed = true ∧ decode (encode i) = .command i ∧ decodeTableWord 32 (encode i).toNat = some i ∧
    ∃ row ∈ opcodeTable, row.instr = i ∧ ∀ w, row.selects w = true ↔ w = encode i

theorem modpow : Statement .modpow := by
  refine ⟨rfl, rfl, by decide, ⟨.modpow, 1#32, 0xFFFFFFFF#32⟩, by decide, rfl, fun w => ?_⟩
  simp [OpcodeRow.selects, encode, and_mask]

theorem encrypt : Statement .encrypt := by
  refine ⟨rfl, rfl, by decide, ⟨.encrypt, 2#32, 0xFFFFFFFF#32⟩, by decide, rfl, fun w => ?_⟩
  simp [OpcodeRow.selects, encode, and_mask]

theorem decrypt : Statement .decrypt := by
  refine ⟨rfl, rfl, by decide, ⟨.decrypt, 3#32, 0xFFFFFFFF#32⟩, by decide, rfl, fun w => ?_⟩
  simp [OpcodeRow.selects, encode, and_mask]

end Sys2Proof.Laws.Encoding
end

