-- ==== Sys2Proof/Laws/Rsa.lean ====
section
/-! SUPPORT. The number theory behind `42_decrypt.md` R103 (general knowledge, G1 of `93_implementation_defined.md`). -/

namespace Sys2Proof.Machine

/-- Fermat, with the multiples of `p` included. -/
theorem pow_modEq_prime {p m k : Nat} (hp : p.Prime) (hk : k ≡ 1 [MOD p - 1]) (hk0 : 1 ≤ k) : m ^ k ≡ m [MOD p] := by
  by_cases h : p ∣ m
  · have h1 : m ≡ 0 [MOD p] := (Nat.modEq_zero_iff_dvd).2 h
    exact ((h1.pow k).trans (by rw [zero_pow (by omega)])).trans h1.symm
  · have hc : Nat.Coprime m p := ((Nat.Prime.coprime_iff_not_dvd hp).2 h).symm
    obtain ⟨c, hc'⟩ : ∃ c, k = 1 + (p - 1) * c := by
      have := (Nat.modEq_iff_dvd' hk0).1 hk.symm
      obtain ⟨c, hc⟩ := this
      exact ⟨c, by omega⟩
    have hf : m ^ (p - 1) ≡ 1 [MOD p] := by
      have := Nat.ModEq.pow_totient hc
      rwa [Nat.totient_prime hp] at this
    rw [hc', pow_add, pow_one, pow_mul]
    simpa using Nat.ModEq.mul_left m (hf.pow c)

/-- Two exponents inverse to each other undo each other modulo the product of two primes. -/
theorem modPow_modPow {p q m e d : Nat} (hp : p.Prime) (hq : q.Prime) (hne : p ≠ q)
    (hed : e * d ≡ 1 [MOD Nat.lcm (p - 1) (q - 1)]) (hm : m < p * q) :
    modPow (modPow m e (p * q)) d (p * q) = m := by
  have hk0 : 1 ≤ e * d := by
    by_contra h
    have h0 : e * d = 0 := by omega
    rw [h0] at hed
    have h1 := (Nat.modEq_iff_dvd' (Nat.zero_le 1)).1 hed
    have h2 : Nat.lcm (p-1) (q-1) = 1 := Nat.dvd_one.1 h1
    have h3 : p - 1 ∣ 1 := (Nat.dvd_lcm_left (p-1) (q-1)).trans (by rw [h2])
    have h4 : q - 1 ∣ 1 := (Nat.dvd_lcm_right (p-1) (q-1)).trans (by rw [h2])
    have := Nat.dvd_one.1 h3; have := Nat.dvd_one.1 h4
    omega
  have a : m ^ (e * d) ≡ m [MOD p] := pow_modEq_prime hp (Nat.ModEq.of_dvd (Nat.dvd_lcm_left (p-1) (q-1)) hed) hk0
  have b : m ^ (e * d) ≡ m [MOD q] := pow_modEq_prime hq (Nat.ModEq.of_dvd (Nat.dvd_lcm_right (p-1) (q-1)) hed) hk0
  have hc : Nat.Coprime p q := (Nat.coprime_primes hp hq).2 hne
  have c := (Nat.modEq_and_modEq_iff_modEq_mul hc).1 ⟨a, b⟩
  have h : (m ^ e % (p * q)) ^ d ≡ m [MOD p * q] := by
    refine ((Nat.mod_modEq _ _).pow d).trans ?_
    rw [← pow_mul]; exact c
  rw [modPow, modPow, show (m ^ e % (p * q)) ^ d % (p * q) = m % (p * q) from h, Nat.mod_eq_of_lt hm]

end Sys2Proof.Machine
end

