-- ==== Sys2Proof/Tests/Slice0.lean ====
section
/-! SUPPORT. The model's own tests: the smoke test of WellFormed, words written out, one step of each command, and a
concrete state for the hypotheses of each statement. Expected values are those of `95_test_vectors.md`. -/

namespace Sys2Proof.Tests

open Sys2Proof.Machine

/-- The keys of S1 and S5 in one block: `N=143 E=7 P=11 Q=13 D=103 OPB=2 OPE=3 OPM=10`, input `{0x05}`. -/
def idleKey : State := { State.reset with ir := #v[143, 7, 11, 13, 103, 0, 0, 0, 2, 3, 10, 0], ibuf := [(0, 5#8)], ilen := 1 }

/-- Right after the acceptance of MODPOW in `idleKey`: row "setup" of the trace of S5. -/
def running : State := { idleKey with wb := 2, wx := 3, wm := 10, wr := 1, op := 1#32, phase := .run }

/-- Row "iteration 2" of the trace of S5. -/
def lastTurn : State := { running with wb := 6, wx := 0, wr := 8 }

/-- After the finish of S5. -/
def finished : State :=
  { idleKey with ir := #v[143, 7, 11, 13, 103, 0, 0, 0, 2, 3, 10, 8], obuf := [(0, 8#8)], olen := 1, op := 1#32, done := true }

/-- `s` with one event pending. -/
def facing (s : State) (e : Event) : State := { s with pending := [e] }

/-- The next state, where there is one. -/
def nextOf : Host.Outcome State Fault Refusal → Option State
  | .next t => some t
  | .fault _ => none
  | .refused _ => none

/-! ## WellFormed: the one range that depends on KBYTES (`43_host_interface.md` R104) -/

theorem test_wrIR_value_too_wide_is_ill_formed : (Event.host (.wrIR 8 (2 ^ 32))).wellFormed 4 = false := by decide

theorem test_wrIR_largest_value_is_well_formed : (Event.host (.wrIR 8 (2 ^ 32 - 1))).wellFormed 4 = true := by decide

theorem test_step_refuses_ill_formed_wrIR :
    step (facing idleKey (.host (.wrIR 8 (2 ^ 32)))) = .refused .valueTooWide := by rfl

theorem test_step_takes_well_formed_wrIR :
    (nextOf (step (facing idleKey (.host (.wrIR 8 (2 ^ 32 - 1)))))).map (·.reg IR.OPB) = some 4294967295 := by decide

theorem test_instr_well_formed : Instr.modpow.wellFormed && Instr.encrypt.wellFormed && Instr.decrypt.wellFormed := by
  decide

/-! ## Decode: words from the table of `30_encoding.md` R64 -/

theorem test_decode_modpow_bits : decode 0b00000000000000000000000000000001#32 = .command .modpow := by decide

theorem test_decode_encrypt_bits : decode 0b00000000000000000000000000000010#32 = .command .encrypt := by decide

theorem test_decode_decrypt_bits : decode 0b00000000000000000000000000000011#32 = .command .decrypt := by decide

theorem test_decode_illegal_words :
    decode 0#32 = .illegal ∧ decode 4#32 = .illegal ∧ decode 0x01000000#32 = .illegal ∧
    decode 0x00010001#32 = .illegal ∧ decode 0xFFFFFFFF#32 = .illegal := by decide

theorem test_decodeTableWord :
    decodeTableWord 32 1 = some .modpow ∧ decodeTableWord 32 2 = some .encrypt ∧ decodeTableWord 32 3 = some .decrypt ∧
    decodeTableWord 32 0 = none ∧ decodeTableWord 64 0x100000001 = none := by decide

theorem test_opcode_rows_are_disjoint : opcodeTable.Pairwise (fun a b => a.matchBits ≠ b.matchBits) := by decide

/-! ## The commands at reset (`70_reset_and_hazards.md` R144), as the host places them -/

theorem test_placed_modpow_at_reset :
    (nextOf (step (State.reset.withFetchWord 32 1))).map (fun t => (t.status, t.op)) = some (0x26#32, 1#32) := by decide

theorem test_placed_encrypt_at_reset :
    (nextOf (step (State.reset.withFetchWord 32 2))).map (fun t => (t.status, t.op)) = some (0x16#32, 2#32) := by decide

theorem test_placed_decrypt_at_reset :
    (nextOf (step (State.reset.withFetchWord 32 3))).map (fun t => (t.status, t.op)) = some (0x26#32, 3#32) := by decide

/-! ## One step of each command and of the engine (`95_test_vectors.md` part 2.1) -/

/-- Trace of S5, row "setup". -/
theorem test_modpow_setup : nextOf (exec .modpow idleKey) = some running := by decide

/-- Trace of S1, row "setup". -/
theorem test_encrypt_setup :
    (nextOf (exec .encrypt idleKey)).map (fun t => (t.wr, t.wb, t.wx, t.wm)) = some (1, 5, 7, 143) := by decide

/-- S3: message `{0x90, 0x00}` under `N = 143`. -/
theorem test_encrypt_message_too_long :
    (nextOf (exec .encrypt { idleKey with ibuf := [(0, 0x90#8)], ilen := 2 })).map (fun t => (t.status, t.wb)) =
      some (0x16#32, 0) := by decide

/-- S4, second half: `DECRYPT` 2183 under `(61, 53, 413)`, row "setup". -/
theorem test_decrypt_setup :
    (nextOf (exec .decrypt { idleKey with
      ir := #v[3233, 17, 61, 53, 413, 0, 0, 0, 0, 0, 0, 0], ibuf := [(0, 0x08#8), (1, 0x87#8)], ilen := 2 })).map
        (fun t => (t.wr, t.wb, t.wx, t.wm)) = some (1, 2183, 413, 3233) := by decide

/-- Trace of S5, iteration 1. -/
theorem test_iteration_odd :
    (nextOf (step running)).map (fun t => (t.wr, t.wb, t.wx, t.wm)) = some (2, 4, 1, 10) := by decide

/-- Trace of S4, first half, iteration 2: an even exponent keeps `WR`. -/
theorem test_iteration_even :
    (nextOf (step { running with wm := 3233, wr := 1234, wb := 13, wx := 8 })).map (fun t => (t.wr, t.wb, t.wx)) =
      some (1234, 169, 4) := by decide

/-- Trace of S5, finish. -/
theorem test_finish : nextOf (step lastTurn) = some finished := by decide

/-- Trace of S8, finish: a last byte of zero is delivered, and the buffer is big-endian. -/
theorem test_finish_bytes :
    (nextOf (step { lastTurn with wr := 179456 })).map (fun t => (t.output, t.olen)) =
      some ([0x02#8, 0xbd#8, 0x00#8], 3) := by decide

/-! ## The host's transactions -/

theorem test_read_status_after_finish :
    (nextOf (step (facing finished (.host (.rdCtl CTL.STATUS))))).map (·.reply) = some (some (.ctl 2#32)) := by decide

theorem test_ilen_above_capacity_is_ignored :
    (nextOf (step (facing idleKey (.host (.wrCtl CTL.ILEN 5#32))))).map (·.ilen) = some 1 := by decide

theorem test_write_to_res_is_ignored :
    (nextOf (step (facing finished (.host (.wrIR 11 3))))).map (·.reg IR.RES) = some 8 := by decide

theorem test_script_load :
    scriptEvents [.load [0x04#8, 0xd2#8]] =
      [.host (.wrIBUF 0 0x04#8), .host (.wrIBUF 1 0xd2#8), .host (.wrCtl CTL.ILEN 2#32)] := by decide

/-! ## Concrete states that meet the invariant -/

theorem inv_idleKey : Inv idleKey where
  kbytes_range := by decide
  reg_lt := by decide
  working_lt := by decide
  ibuf_ok := by decide
  obuf_ok := by decide
  idle_clear := by decide
  run_ok h := absurd h (by decide)
  output_ok := ⟨rfl, rfl, fun _ _ => rfl, rfl⟩
  lengths := by decide
  error_ok := by decide
  done_idle := by decide
  errcode_le := by decide

theorem inv_running : Inv running :=
  inv_startRun inv_idleKey .modpow (b := 2) (e := 3) (m := 10) (by decide) (by decide) (by decide)

theorem inv_finished : Inv finished where
  kbytes_range := by decide
  reg_lt := by decide
  working_lt := by decide
  ibuf_ok := by decide
  obuf_ok := by decide
  idle_clear := by decide
  run_ok h := absurd h (by decide)
  output_ok := ⟨rfl, rfl, fun i hi => by
    have : i ≠ 0 := by rintro rfl; exact absurd hi (by decide)
    simp [finished, Memory.read, this], rfl⟩
  lengths := by decide
  error_ok := by decide
  done_idle := by decide
  errcode_le := by decide

/-! ## Witnesses: the hypotheses of each statement, clause by clause, met together

`DecodeWrittenOutWords`, `DecodeSelectsByMaskAndMatch`, `StepRunsPlacedCommand`, `StatusFields`,
`ResetStateCommandsAllFail` and `ByteSequencesRoundTrip` have no hypothesis. -/

theorem witness_DecodeEncodeAgree :
    Instr.modpow.wellFormed = true ∧ decode 1#32 = .command .modpow ∧ decode 0#32 = .illegal := by decide

theorem witness_StepRunsDecodedCommand :
    ∃ (s : State) (rest : List Event), s.pending = .host (.wrCtl CTL.CMD 3#32) :: rest ∧ decode 3#32 = .command .decrypt :=
  ⟨facing idleKey _, [], rfl, by decide⟩

theorem witness_IllegalWordCompletesWithError :
    (∃ (s : State) (rest : List Event), s.pending = .host (.wrCtl CTL.CMD 4#32) :: rest ∧ (4#32 ≠ 1#32 ∧ 4#32 ≠ 2#32 ∧ 4#32 ≠ 3#32) ∧
      s.phase = .idle) ∧
    (∃ (s : State) (rest : List Event), s.pending = .host (.wrCtl CTL.CMD 0#32) :: rest ∧ (0#32 ≠ 1#32 ∧ 0#32 ≠ 2#32 ∧ 0#32 ≠ 3#32) ∧
      s.phase = .run) :=
  ⟨⟨facing idleKey _, [], rfl, by decide, rfl⟩, ⟨facing running _, [], rfl, by decide, rfl⟩⟩

theorem witness_CommandWhileRunningIsIgnored :
    ∃ (s : State) (rest : List Event), s.phase = .run ∧ s.pending = .host (.wrCtl CTL.CMD 2#32) :: rest := ⟨facing running _, [], rfl, rfl⟩

/-- `OPM = 1` and `OPM = 0`, where the two clauses meet. -/
theorem witness_ModpowAcceptance :
    (∃ (s : State), s.phase = .idle ∧ s.reg IR.OPM ≠ 0) ∧ (∃ (s : State), s.phase = .idle ∧ s.reg IR.OPM = 0) :=
  ⟨⟨idleKey.setReg IR.OPM 1, rfl, by decide⟩, ⟨idleKey.setReg IR.OPM 0, rfl, by decide⟩⟩

/-- `m = N - 1` and `m = N`, where the two clauses meet. -/
theorem witness_EncryptAcceptance :
    (∃ (s : State), s.phase = .idle ∧ s.inputValue < s.reg IR.N) ∧ (∃ (s : State), s.phase = .idle ∧ s.reg IR.N ≤ s.inputValue) :=
  ⟨⟨{ idleKey with ibuf := [(0, 142#8)] }, rfl, by decide⟩, ⟨{ idleKey with ibuf := [(0, 143#8)] }, rfl, by decide⟩⟩

/-- `P*Q` at 1, `2^32 - 1`, 0 and `2^32`. -/
theorem witness_DecryptAcceptance :
    (∃ (s : State), s.phase = .idle ∧ s.reg IR.P * s.reg IR.Q = 1 ∧ s.reg IR.P * s.reg IR.Q < 2 ^ s.width) ∧
    (∃ (s : State), s.phase = .idle ∧ s.reg IR.P * s.reg IR.Q ≠ 0 ∧ s.reg IR.P * s.reg IR.Q + 1 = 2 ^ s.width) ∧
    (∃ (s : State), s.phase = .idle ∧ s.reg IR.P * s.reg IR.Q = 0) ∧
    (∃ (s : State), s.phase = .idle ∧ 2 ^ s.width = s.reg IR.P * s.reg IR.Q) :=
  ⟨⟨(idleKey.setReg IR.P 1).setReg IR.Q 1, rfl, by decide, by decide⟩,
   ⟨(idleKey.setReg IR.P 65535).setReg IR.Q 65537, rfl, by decide, by decide⟩,
   ⟨idleKey.setReg IR.P 0, rfl, by decide⟩,
   ⟨(idleKey.setReg IR.P 65536).setReg IR.Q 65536, rfl, by decide⟩⟩

theorem witness_CommandFrame :
    (∃ (s t : State), exec .modpow s = .next t ∧ s.phase = .run) ∧
    (∃ (s t : State), exec .modpow s = .next t ∧ s.phase = .idle ∧ t.errcode = 0#4) ∧
    (∃ (s t : State), exec .decrypt s = .next t ∧ s.phase = .idle ∧ t.errcode ≠ 0#4) :=
  ⟨⟨running, running, exec_run rfl _, rfl⟩, ⟨idleKey, _, rfl, rfl, by decide⟩,
   ⟨idleKey.setReg IR.P 0, _, rfl, rfl, by decide⟩⟩

theorem witness_ErrorsOnlyAtAcceptance :
    (∃ (s : State) (rest : List Event), s.pending = .host (.wrCtl CTL.CMD 2#32) :: rest ∧ s.phase = .idle) ∧
    (∃ (s t : State), step s = .next t ∧ t.errcode ≠ s.errcode ∧ s.phase = .idle) ∧
    (∃ (s t : State), step s = .next t ∧ t.errcode ≠ s.errcode ∧ s.pending = [.reset]) :=
  ⟨⟨facing idleKey _, [], rfl, rfl⟩, ⟨facing idleKey (commandEvent 0#32), _, rfl, by decide, rfl⟩,
   ⟨facing { idleKey with errcode := 3#4 } .reset, _, rfl, by decide, rfl⟩⟩

/-- An odd exponent with the queue empty and an even one with an engine slot; `WX = 1` and `WM = 1` at their least. -/
theorem witness_IterationStep :
    (∃ (s : State), s.pending = [] ∧ s.phase = .run ∧ s.wx = 1 ∧ 1 ≤ s.wm ∧ s.wr < s.wm) ∧
    (∃ (s : State) (rest : List Event), s.pending = .engine :: rest ∧ s.phase = .run ∧ 0 < s.wx ∧ s.wx % 2 = 0 ∧ s.wm = 1) :=
  ⟨⟨{ running with wx := 1 }, rfl, rfl, rfl, by decide, by decide⟩,
   ⟨facing { running with wx := 2, wm := 1 } .engine, [], rfl, rfl, by decide, by decide, rfl⟩⟩

/-- The least and the greatest result. -/
theorem witness_FinishStep :
    (∃ (s : State), s.pending = [] ∧ s.phase = .run ∧ s.wx = 0 ∧ s.wr = 0 ∧ s.wr < 2 ^ s.width) ∧
    (∃ (s : State) (rest : List Event), s.pending = .engine :: rest ∧ s.phase = .run ∧ s.wx = 0 ∧ s.wr + 1 = 2 ^ s.width) :=
  ⟨⟨{ lastTurn with wr := 0 }, rfl, rfl, rfl, rfl, by decide⟩,
   ⟨facing { lastTurn with wr := 2 ^ 32 - 1 } .engine, [], rfl, rfl, rfl, by decide⟩⟩

theorem witness_EngineStepSelection :
    (∃ (s : State), s.pending = [] ∧ s.phase = .idle) ∧
    (∃ (s t : State), s.pending = [] ∧ s.phase = .run ∧ step s = .next t ∧ s.wx = 1) ∧
    (∃ (s t : State), s.pending = [] ∧ s.phase = .run ∧ step s = .next t ∧ s.wx = 0) :=
  ⟨⟨idleKey, rfl, rfl⟩, ⟨{ running with wx := 1 }, _, rfl, rfl, rfl, rfl⟩, ⟨lastTurn, _, rfl, rfl, rfl, rfl⟩⟩

theorem witness_EngineFrame :
    (∃ (s t : State), s.pending = [] ∧ step s = .next t ∧ t.phase = s.phase ∧ s.phase = .run) ∧
    (∃ (s t : State) (rest : List Event), s.pending = .engine :: rest ∧ step s = .next t ∧ t.phase ≠ s.phase) :=
  ⟨⟨running, _, rfl, rfl, rfl, rfl⟩, ⟨facing lastTurn .engine, _, [], rfl, rfl, by decide⟩⟩

theorem witness_LoopInvariant :
    ∃ (s t : State), s.phase = .idle ∧ commandArgs .modpow s = .ok (2, 3, 10) ∧ exec .modpow s = .next t ∧ 2 ≤ bitlen 3 :=
  ⟨idleKey, _, rfl, rfl, rfl, by decide⟩

theorem witness_StepsToIdle : ∃ (s : State), Inv s ∧ s.phase = .run ∧ s.pending = [] ∧ 2 ≤ bitlen s.wx :=
  ⟨running, inv_running, rfl, rfl, by decide⟩

theorem witness_ModulusOneGivesZero :
    ∃ (s t : State), s.phase = .idle ∧ s.reg IR.OPM = 1 ∧ exec .modpow s = .next t ∧ 2 ≤ bitlen (s.reg IR.OPE) :=
  ⟨idleKey.setReg IR.OPM 1, _, rfl, by decide, rfl, by decide⟩

/-- `OPM = 1` and `OPM = 2`, where the two last clauses meet, in states that the host's writes reach. -/
theorem witness_ExponentZeroFinishesAtOnce :
    (∃ (s t : State), Inv s ∧ s.phase = .idle ∧ s.reg IR.OPE = 0 ∧ s.reg IR.OPM ≠ 0 ∧ exec .modpow s = .next t ∧ s.reg IR.OPM = 1) ∧
    (∃ (s t : State), Inv s ∧ s.phase = .idle ∧ s.reg IR.OPE = 0 ∧ s.reg IR.OPM ≠ 0 ∧ exec .modpow s = .next t ∧ s.reg IR.OPM = 2) :=
  ⟨⟨hostAccess (.wrIR 10 1) (hostAccess (.wrIR 9 0) idleKey), _,
      inv_access (inv_access inv_idleKey (by decide)) (by decide), rfl, by decide, by decide, rfl, by decide⟩,
   ⟨hostAccess (.wrIR 10 2) (hostAccess (.wrIR 9 0) idleKey), _,
      inv_access (inv_access inv_idleKey (by decide)) (by decide), rfl, by decide, by decide, rfl, by decide⟩⟩

theorem witness_ModpowComputesModPow :
    (∃ (s : State), s.phase = .idle ∧ s.reg IR.OPM < 2 ^ s.width ∧ s.reg IR.OPM ≠ 0) ∧
    (∃ (s : State), s.phase = .idle ∧ s.reg IR.OPM < 2 ^ s.width ∧ s.reg IR.OPM = 0) :=
  ⟨⟨idleKey, rfl, by decide, by decide⟩, ⟨idleKey.setReg IR.OPM 0, rfl, by decide, by decide⟩⟩

/-- S1 gives 0x2f; `N = 5` rejects the same byte, which equals it. -/
theorem witness_EncryptComputesEncrypt :
    (∃ (s : State), s.phase = .idle ∧ s.reg IR.N < 2 ^ s.width ∧ encryptFn (s.reg IR.N) (s.reg IR.E) s.input = .ok [0x2f#8]) ∧
    (∃ (s : State), s.phase = .idle ∧ s.reg IR.N < 2 ^ s.width ∧
      encryptFn (s.reg IR.N) (s.reg IR.E) s.input = .error .messageTooLong) :=
  ⟨⟨idleKey, rfl, by decide, rfl⟩, ⟨idleKey.setReg IR.N 5, rfl, by decide, rfl⟩⟩

theorem witness_DecryptComputesDecrypt :
    (∃ (s : State), s.phase = .idle ∧ 1 ≤ s.reg IR.P * s.reg IR.Q ∧ s.reg IR.P * s.reg IR.Q < 2 ^ s.width) ∧
    (∃ (s : State), s.phase = .idle ∧ s.reg IR.P * s.reg IR.Q = 0) ∧
    (∃ (s : State), s.phase = .idle ∧ 2 ^ s.width ≤ s.reg IR.P * s.reg IR.Q) :=
  ⟨⟨idleKey, rfl, by decide, by decide⟩, ⟨idleKey.setReg IR.Q 0, rfl, by decide⟩,
   ⟨(idleKey.setReg IR.P 65536).setReg IR.Q 65536, rfl, by decide⟩⟩

theorem witness_OperationStepCountAndResult :
    ∃ (s : State), s.phase = .idle ∧ commandArgs .decrypt s = .ok (5, 103, 143) ∧ 143 < 2 ^ s.width ∧ 7 ≤ bitlen 103 :=
  ⟨idleKey, rfl, rfl, by decide, by decide⟩

/-- The host writes an operand register and another command while MODPOW runs. -/
theorem witness_ResultInEveryInterleaving :
    ∃ (s : State) (es rest : List Event), s.phase = .idle ∧ commandArgs .modpow s = .ok (2, 3, 10) ∧ 10 < 2 ^ s.width ∧
      s.pending = .host (.wrCtl CTL.CMD (encode .modpow)) :: (es ++ .engine :: rest) ∧ Event.reset ∉ es ∧
      (∀ x ∈ es, x.wellFormed s.kbytes = true) ∧ es.count .engine = bitlen 3 ∧ 4 = es.length :=
  ⟨{ idleKey with pending := commandEvent 1#32 ::
      [.engine, .host (.wrIR 8 9), commandEvent 2#32, .engine, .engine] },
    [.engine, .host (.wrIR 8 9), commandEvent 2#32, .engine], [], rfl, rfl, by decide, rfl, by decide, by decide,
    by decide, rfl⟩

theorem witness_RsaRoundTrip :
    ∃ (s : State), Inv s ∧ s.phase = .idle ∧ (s.reg IR.P).Prime ∧ (s.reg IR.Q).Prime ∧ s.reg IR.P ≠ s.reg IR.Q ∧
      s.reg IR.N = s.reg IR.P * s.reg IR.Q ∧
      s.reg IR.E * s.reg IR.D ≡ 1 [MOD Nat.lcm (s.reg IR.P - 1) (s.reg IR.Q - 1)] ∧ s.inputValue < s.reg IR.N ∧
      s.pending = [.host (.wrCtl CTL.CMD (encode .encrypt))] := by
  refine ⟨facing idleKey (commandEvent (encode .encrypt)), inv_pending inv_idleKey _ _, rfl, ?_, ?_, by decide, by decide,
    by decide, by decide, rfl⟩
  · show Nat.Prime 11; norm_num
  · show Nat.Prime 13; norm_num

theorem witness_RdCtlReturns :
    ∀ r : Fin 65536, ∃ (s : State) (rest : List Event), s.pending = .host (.rdCtl r) :: rest := fun _ => ⟨facing idleKey _, [], rfl⟩

theorem witness_StatusSixValues :
    (∃ (kb n : Nat) (es : List Event) (s : State), Config.minKbytes ≤ kb ∧ kb ≤ Config.maxKbytes ∧
      runs n { State.resetWith kb with pending := es } s ∧ s.status = 0x16#32) ∧
    Inv idleKey ∧ Inv running ∧ Inv finished :=
  ⟨⟨65535, 1, [commandEvent 2#32], _, by decide, by decide, runs_one rfl, by decide⟩, inv_idleKey, inv_running,
    inv_finished⟩

/-- `ILEN` at the capacity and one above it, and the first register after `CMD`. -/
theorem witness_WrCtlOtherThanCommand :
    (∃ (s : State) (r : Fin 65536) (v : Word32) (rest : List Event), s.pending = .host (.wrCtl r v) :: rest ∧
      r.val = 2 ∧ v.toNat = s.kbytes) ∧
    (∃ (s : State) (r : Fin 65536) (v : Word32) (rest : List Event), s.pending = .host (.wrCtl r v) :: rest ∧
      r.val = 2 ∧ v.toNat = s.kbytes + 1) ∧
    (∃ (s : State) (r : Fin 65536) (v : Word32) (rest : List Event), s.pending = .host (.wrCtl r v) :: rest ∧
      r.val = 1) :=
  ⟨⟨facing idleKey (.host (.wrCtl 2 4#32)), 2, 4#32, [], rfl, rfl, rfl⟩,
   ⟨facing idleKey (.host (.wrCtl 2 5#32)), 2, 5#32, [], rfl, rfl, rfl⟩,
   ⟨facing idleKey (.host (.wrCtl 1 0#32)), 1, 0#32, [], rfl, rfl⟩⟩

/-- The last writable register, `RES`, and the last reserved one, with the greatest value. -/
theorem witness_WrIRWritesOneRegister :
    ∀ k ∈ [(10 : Fin 16), 11, 15], ∃ (s : State) (v : Nat) (rest : List Event),
      s.pending = .host (.wrIR k v) :: rest ∧ v + 1 = 2 ^ s.width :=
  fun k _ => ⟨facing idleKey (.host (.wrIR k (2 ^ 32 - 1))), 2 ^ 32 - 1, [], rfl, rfl⟩

theorem witness_RdIRReturns : ∀ k : Fin 16, ∃ (s : State) (rest : List Event), s.pending = .host (.rdIR k) :: rest :=
  fun _ => ⟨facing idleKey _, [], rfl⟩

/-- The last byte of the buffer and the first offset outside it. -/
theorem witness_WrIBUFWritesOneByte :
    ∀ i ∈ [(3 : Fin 65536), 4], ∃ (s : State) (b : Byte) (rest : List Event),
      Memory.wf s.ibuf = true ∧ s.kbytes = 4 ∧ s.pending = .host (.wrIBUF i b) :: rest :=
  fun i _ => ⟨facing idleKey (.host (.wrIBUF i 0xff#8)), 0xff#8, [], rfl, rfl, rfl⟩

/-- Inside the output, above `OLEN`, and at the capacity. -/
theorem witness_RdBuffersReturn :
    ∀ i ∈ [(0 : Fin 65536), 1, 4], ∃ (s s' : State) (rest : List Event), s.pending = .host (.rdIBUF i) :: rest ∧
      s'.pending = .host (.rdOBUF i) :: rest ∧ Inv s' ∧ s'.olen = 1 :=
  fun i _ => ⟨facing idleKey (.host (.rdIBUF i)), facing finished (.host (.rdOBUF i)), [], rfl, rfl,
    inv_pending inv_finished _ _, rfl⟩

/-- One state for each of the six clauses, at the least inert location. -/
theorem witness_InertLocations :
    (∃ s : State, s.pending = [.host (.rdIR 12)] ∧ 12 ≤ (12 : Fin 16).val) ∧
    (∃ s : State, s.pending = [.host (.rdCtl 5)] ∧ 5 ≤ (5 : Fin 65536).val) ∧
    (∃ s : State, s.pending = [.host (.rdOBUF 4)] ∧ s.kbytes ≤ (4 : Fin 65536).val) ∧
    (∃ s : State, s.pending = [.host (.wrIR 11 1)] ∧ 11 ≤ (11 : Fin 16).val ∧ 1 < 2 ^ s.width) ∧
    (∃ s : State, s.pending = [.host (.wrCtl 3 7#32)] ∧ 3 ≤ (3 : Fin 65536).val) ∧
    (∃ s : State, s.pending = [.host (.wrIBUF 4 7#8)] ∧ s.kbytes ≤ (4 : Fin 65536).val) :=
  ⟨⟨facing idleKey _, rfl, by decide⟩, ⟨facing idleKey _, rfl, by decide⟩, ⟨facing idleKey _, rfl, by decide⟩,
   ⟨facing idleKey _, rfl, by decide, by decide⟩, ⟨facing idleKey _, rfl, by decide⟩,
   ⟨facing idleKey _, rfl, by decide⟩⟩

/-- The least value that cannot be expressed. -/
theorem witness_RefusedExactlyWhenInexpressible :
    ∃ (s : State) (r : Refusal) (k : Fin 16) (v : Nat) (rest : List Event), step s = .refused r ∧
      r = .valueTooWide ∧ s.pending = .host (.wrIR k v) :: rest ∧ v = 2 ^ s.width :=
  ⟨facing idleKey (.host (.wrIR 0 (2 ^ 32))), .valueTooWide, 0, 2 ^ 32, [], rfl, rfl, rfl, by decide⟩

theorem witness_WorkingRegistersAreHidden :
    ∃ (s t : State) (x : HostTxn) (rest : List Event), s.pending = .host x :: rest ∧
      (∀ w, x ≠ .wrCtl CTL.CMD w) ∧ step s = .next t :=
  ⟨facing running (.host (.rdCtl CTL.STATUS)), _, _, [], rfl, by simp, rfl⟩

/-- A register, a byte and `ILEN`, each written while an operation runs. -/
theorem witness_HostWritesAndEngineCommute :
    ∀ x ∈ [HostTxn.wrIR 8 9, .wrIBUF 0 9#8, .wrCtl CTL.ILEN 0#32], ∃ (s : State), Inv s ∧ s.phase = .run ∧
      ((∃ k v, x = .wrIR k v) ∨ (∃ i b, x = .wrIBUF i b) ∨ (∃ r v, x = .wrCtl r v ∧ r ≠ CTL.CMD)) ∧
      x.expressible s.kbytes = true := by
  intro x hx
  refine ⟨running, inv_running, rfl, ?_⟩
  simp only [List.mem_cons, List.not_mem_nil, or_false] at hx
  rcases hx with rfl | rfl | rfl
  · exact ⟨.inl ⟨_, _, rfl⟩, by decide⟩
  · exact ⟨.inr (.inl ⟨_, _, rfl⟩), by decide⟩
  · exact ⟨.inr (.inr ⟨_, _, rfl, by decide⟩), by decide⟩

theorem witness_ResetClearsEverything :
    ∃ (s : State) (rest : List Event), s.pending = .reset :: rest ∧ s.phase = .run := ⟨facing running .reset, [], rfl, rfl⟩

theorem witness_ResetMeetsInvariant :
    (Config.minKbytes ≤ 1 ∧ 1 ≤ Config.maxKbytes) ∧ (Config.minKbytes ≤ 65535 ∧ 65535 ≤ Config.maxKbytes) := by decide

theorem witness_EveryStepKeepsInvariant :
    (∃ (s t : State), Inv s ∧ step s = .next t ∧ s.phase = .run) ∧ (∃ (s t : State), Inv s ∧ step s = .next t ∧ t.phase = .run ∧ s.phase = .idle) :=
  ⟨⟨running, _, inv_running, rfl, rfl⟩,
   ⟨facing idleKey (commandEvent 1#32), _, inv_pending inv_idleKey _ _, rfl, by decide, rfl⟩⟩

theorem witness_ReachableStatesMeetInvariant :
    ∃ (kb n : Nat) (es : List Event) (t : State), Config.minKbytes ≤ kb ∧ kb ≤ Config.maxKbytes ∧
      runs n { State.resetWith kb with pending := es } t ∧ t.reg IR.OPM = 9 ∧ n = 2 :=
  ⟨1, 2, [.host (.wrIR 10 9), .engine], _, by decide, by decide, runs_two rfl rfl, by decide, rfl⟩

theorem witness_MachineNeverStops : ∃ (s : State), Inv s ∧ pendingWellFormed s ∧ s.pending ≠ [] :=
  ⟨facing running (.host (.wrIR 8 9)), inv_pending inv_running _ _, fun e he => by
    obtain rfl : e = .host (.wrIR 8 9) := by simpa [facing] using he
    rfl, by decide⟩

theorem witness_InputRegistersChangeOnlyByHostOrReset :
    (∃ (s t : State), IR.OPB ≠ IR.RES ∧ step s = .next t ∧ t.reg IR.OPB ≠ s.reg IR.OPB ∧ s.pending = [.host (.wrIR 8 9)]) ∧
    (∃ (s t : State), IR.OPB ≠ IR.RES ∧ step s = .next t ∧ t.reg IR.OPB ≠ s.reg IR.OPB ∧ s.pending = [.reset]) :=
  ⟨⟨facing idleKey _, _, by decide, rfl, by decide, rfl⟩, ⟨facing idleKey _, _, by decide, rfl, by decide, rfl⟩⟩

theorem witness_InputBufferChangesOnlyByHostOrReset :
    (∃ (s t : State), Memory.wf s.ibuf = true ∧ step s = .next t ∧ Memory.read t.ibuf 3 ≠ Memory.read s.ibuf 3) ∧
    (∃ (s t : State), Memory.wf s.ibuf = true ∧ step s = .next t ∧ t.ilen ≠ s.ilen) :=
  ⟨⟨facing idleKey (.host (.wrIBUF 3 1#8)), _, by decide, rfl, by decide⟩,
   ⟨facing idleKey (.host (.wrCtl 2 4#32)), _, by decide, rfl, by decide⟩⟩

theorem witness_OutputsChangeOnlyAtCompletion :
    (∃ (s t : State), step s = .next t ∧ ¬ SameOutputs s t ∧ s.phase = .run) ∧
    (∃ (s t : State), step s = .next t ∧ ¬ SameOutputs s t ∧ s.phase = .idle ∧ t.errcode ≠ 0#4) ∧
    (∃ (s t : State), step s = .next t ∧ ¬ SameOutputs s t ∧ s.pending = [.reset]) :=
  ⟨⟨lastTurn, _, rfl, fun h => absurd h.1 (by decide), rfl⟩,
   ⟨facing finished (commandEvent 0#32), _, rfl, fun h => absurd h.1 (by decide), rfl, by decide⟩,
   ⟨facing finished .reset, _, rfl, fun h => absurd h.1 (by decide), rfl⟩⟩

theorem witness_OpWrittenOnlyByAcceptance :
    (∃ (s t : State), step s = .next t ∧ s.pending = [.host (.wrCtl CTL.CMD 7#32)] ∧ s.phase = .idle ∧ t.op ≠ s.op) ∧
    (∃ (s t : State), step s = .next t ∧ s.pending = [.reset] ∧ t.op ≠ s.op) :=
  ⟨⟨facing idleKey _, _, rfl, rfl, rfl, by decide⟩, ⟨facing finished _, _, rfl, rfl, by decide⟩⟩

theorem witness_DoneFlagRule :
    (∃ (s t : State), step s = .next t ∧ s.pending = [.host (.wrCtl CTL.CMD 1#32)] ∧ s.phase = .idle ∧
      t.phase = .run ∧ t.done ≠ s.done) ∧
    (∃ (s t : State), step s = .next t ∧ s.pending = [.host (.wrCtl CTL.CMD 0#32)] ∧ s.phase = .idle ∧
      t.phase = .idle ∧ t.done ≠ s.done) ∧
    (∃ (s t : State), step s = .next t ∧ s.pending = [] ∧ s.phase = .run ∧ s.wx = 0) ∧
    (∃ (s t : State), step s = .next t ∧ s.pending = [.reset] ∧ t.done ≠ s.done) :=
  ⟨⟨facing finished _, _, rfl, rfl, rfl, by decide, by decide⟩, ⟨facing idleKey _, _, rfl, rfl, rfl, by decide, by decide⟩,
   ⟨lastTurn, _, rfl, rfl, rfl, rfl⟩, ⟨facing finished .reset, _, rfl, rfl, by decide⟩⟩

theorem witness_CapIsConstant :
    (∃ (s t : State), runs 1 s t) ∧ (∃ s : State, s.pending = [.host (.rdCtl 4)]) ∧
    (∃ s : State, s.pending = [.host (.wrCtl 4 9#32)]) :=
  ⟨⟨running, _, runs_one rfl⟩, ⟨facing idleKey _, rfl⟩, ⟨facing idleKey _, rfl⟩⟩

/-- Two inputs alike up to `ILEN` only, an empty one, and one of the whole capacity. -/
theorem witness_InputDecodeIsBigEndian :
    (∃ s t : State, t.ilen = s.ilen ∧ (∀ a, a < s.ilen → Memory.read t.ibuf a = Memory.read s.ibuf a) ∧
      t.ibuf ≠ s.ibuf) ∧
    (∃ s : State, s.ilen = 0) ∧ (∃ s : State, s.ilen = s.kbytes) :=
  ⟨⟨idleKey, { idleKey with ibuf := [(0, 5#8), (1, 1#8)] }, rfl, fun a h => by
      obtain rfl : a = 0 := by simpa [idleKey] using h
      rfl, by decide⟩,
   ⟨State.reset, rfl⟩, ⟨{ idleKey with ilen := 4 }, rfl⟩⟩

/-- `{0x05}` and `{0x00, 0x05}`. -/
theorem witness_LeadingZerosEncryptAlike :
    ∃ s s' : State, s.phase = .idle ∧ s'.phase = .idle ∧ s'.reg IR.N = s.reg IR.N ∧ s'.reg IR.E = s.reg IR.E ∧
      s'.input = List.replicate 1 0#8 ++ s.input ∧ s'.inputValue < s'.reg IR.N :=
  ⟨idleKey, { idleKey with ibuf := [(1, 5#8)], ilen := 2 }, rfl, rfl, rfl, rfl, rfl, by decide⟩

/-- Ciphertexts 5 and 5 + 143 under `P*Q = 143`. -/
theorem witness_DecryptReducesCiphertext :
    ∃ s s' t : State, s.phase = .idle ∧ s'.phase = .idle ∧ s'.reg IR.P = s.reg IR.P ∧ s'.reg IR.Q = s.reg IR.Q ∧
      s'.reg IR.D = s.reg IR.D ∧ s'.kbytes = s.kbytes ∧
      s'.inputValue = s.inputValue + 1 * (s.reg IR.P * s.reg IR.Q) ∧ exec .decrypt s = .next t ∧ t.phase = .run :=
  ⟨idleKey, { idleKey with ibuf := [(0, 148#8)] }, _, rfl, rfl, rfl, rfl, rfl, rfl, rfl, rfl, by decide⟩

theorem witness_CrtRegistersNeverRead :
    (∃ (s t : State), exec .modpow s = .next t) ∧ (∃ (s t : State), engineStep s = .next t ∧ s.phase = .run) ∧
    (∃ (s t : State), exec .decrypt s = .next t ∧ t.phase = .run) :=
  ⟨⟨idleKey, _, rfl⟩, ⟨running, _, rfl, rfl⟩, ⟨idleKey, _, rfl, by decide⟩⟩

/-- A load of nothing and a load of the whole buffer. -/
theorem witness_LoadSetsInput :
    ∀ bs ∈ [[], [0#8, 1#8, 0#8, 2#8]], ∃ (s : State) (rest : List Event), Memory.wf s.ibuf = true ∧
      bs.length ≤ s.kbytes ∧ s.kbytes ≤ Config.maxKbytes ∧ s.pending = scriptEvents [.load bs] ++ rest :=
  fun bs hbs => ⟨{ idleKey with pending := scriptEvents [.load bs] ++ [] }, [], rfl,
    (by decide : ∀ bs ∈ [[], [0#8, 1#8, 0#8, 2#8]], bs.length ≤ 4) bs hbs, (by decide : 4 ≤ 65535), rfl⟩

theorem witness_UnloadReturnsOutput :
    ∃ (s : State) (rest : List Event), Inv s ∧ s.pending = scriptEvents [.unload s.olen] ++ rest ∧ 0 < s.olen :=
  ⟨{ finished with pending := scriptEvents [.unload 1] ++ [] }, [], inv_pending inv_finished _ _, rfl, by decide⟩

theorem witness_InstancesShareNothing :
    ∃ (bs cs : Instances) (s : State), stepInstance 1 bs = .next cs ∧ 0 ≠ 1 ∧ bs[1]? = some s :=
  ⟨[idleKey, running], _, running, rfl, by decide, rfl⟩

end Sys2Proof.Tests
end

section
/-! `OS2IP` and `I2OSP_min` are inverse up to leading zero bytes (`00_scope.md` R13). -/

namespace Sys2Proof.Machine

/-- `OS2IP` as the big-endian sum over the sequence's own bytes (`00_scope.md` R13). -/
theorem os2ip_eq_sum_getD (bs : List Byte) :
    os2ip bs = ∑ i ∈ Finset.range bs.length, (bs.getD i 0#8).toNat * 256 ^ (bs.length - 1 - i) := by
  have hbs : (List.range bs.length).map (bs.getD · 0#8) = bs :=
    List.ext_getElem (by simp) fun i _ hi => by simp [hi]
  rw [← os2ip_eq_sum (bs.getD · 0#8), hbs]

theorem getD_i2ospMin_toNat {v i : Nat} (hi : i < bytelen v) :
    ((i2ospMin v).getD i 0#8).toNat = (v >>> (8 * (bytelen v - 1 - i))) % 256 := by
  simp [i2ospMin, hi]

@[simp] theorem os2ip_zero_cons (bs : List Byte) : os2ip (0#8 :: bs) = os2ip bs := os2ip_replicate_zero 1 bs

/-- `I2OSP_min(OS2IP(s))` is `s` with its leading zero bytes removed (`00_scope.md` R13). -/
theorem i2ospMin_os2ip (bs : List Byte) : i2ospMin (os2ip bs) = bs.dropWhile (· = 0#8) := by
  induction bs with
  | nil => rfl
  | cons b bs ih =>
    by_cases hb : b = 0#8
    · rw [hb, os2ip_zero_cons, ih, List.dropWhile_cons_of_pos (by simp)]
    · rw [i2ospMin_os2ip_cons hb, List.dropWhile_cons_of_neg (by simpa using hb)]

/-- A leading zero byte would leave a value that fits one byte less than `bytelen` says. -/
theorem head_ne_zero_of_i2ospMin_eq_cons {v : Nat} {b : Byte} {bs : List Byte} (h : i2ospMin v = b :: bs) :
    b ≠ 0#8 := by
  rintro rfl
  have hv : v = os2ip bs := by rw [← os2ip_i2ospMin v, h, os2ip_zero_cons]
  have hlen : bytelen v = bs.length + 1 := by rw [← length_i2ospMin, h, List.length_cons]
  have hle : bytelen v ≤ bs.length := (bytelen_le_iff v _).2 (hv ▸ os2ip_lt bs)
  omega

/-- Settles O52: the sum and the bytes by the definitions, the round trips by the model's own `os2ip_i2ospMin` and by
induction on the leading zero bytes. -/
theorem byteSequencesRoundTrip : Obligations.ByteSequencesRoundTrip :=
  ⟨os2ip_eq_sum_getD, fun v => ⟨length_i2ospMin v, fun _ hi => getD_i2ospMin_toNat hi⟩, os2ip_i2ospMin,
    i2ospMin_os2ip, fun _ _ _ => head_ne_zero_of_i2ospMin_eq_cons⟩

end Sys2Proof.Machine
end

section
/-! What a step that answers did, by its cause; the later sections split on it. -/

namespace Sys2Proof.Machine

/-- A write to `CMD` in IDLE is accepted (`43_host_interface.md` R113): it starts its command, or it raises an error. -/
theorem step_commandEvent_idle {s t : State} {w : Word32} {rest : List Event}
    (hp : s.pending = commandEvent w :: rest) (hi : s.phase = .idle) (h : step s = .next t) :
    (∃ i b e m, w = encode i ∧ commandArgs i s.advance = .ok (b, e, m) ∧ 1 ≤ m ∧
      t = ((s.advance.beginCommand w).setup b e m).startRun) ∨
    ∃ x, t = (s.advance.beginCommand w).raise x := by
  have hi' : s.advance.phase = .idle := hi
  cases hd : decode w with
  | command i =>
    obtain rfl := eq_encode_of_decode hd
    rw [step_command hp hd] at h
    rcases exec_idle hi' i with ⟨b, e, m, hargs, hm, hx⟩ | ⟨x, -, hx⟩
    · rw [hx] at h; cases h
      exact .inl ⟨i, b, e, m, rfl, hargs, hm, rfl⟩
    · rw [hx] at h; cases h
      exact .inr ⟨x, rfl⟩
  | illegal =>
    rw [step_illegal hp hd, acceptIllegal_idle hi'] at h; cases h
    exact .inr ⟨_, rfl⟩

/-- A write to `CMD` in RUN is ignored, whatever its word (`43_host_interface.md` R114). -/
theorem step_commandEvent_run {s : State} {w : Word32} {rest : List Event}
    (hp : s.pending = commandEvent w :: rest) (hr : s.phase = .run) : step s = .next s.advance := by
  have hr' : s.advance.phase = .run := hr
  cases hd : decode w with
  | command i => rw [step_command hp hd, exec_run hr']
  | illegal => rw [step_illegal hp hd, acceptIllegal, State.accept_run hr']

/-- What a step that answers did, by its cause: `step_cases` with the acceptance and the engine's turn told apart by
what they do. -/
inductive StepEffect (s : State) : State → Prop
  | ignored (w : Word32) (rest : List Event) (hp : s.pending = commandEvent w :: rest) (hr : s.phase = .run) :
      StepEffect s s.advance
  | started (i : Instr) (b e m : Nat) (rest : List Event) (hp : s.pending = commandEvent (encode i) :: rest)
      (hi : s.phase = .idle) (hargs : commandArgs i s.advance = .ok (b, e, m)) (hm : 1 ≤ m) :
      StepEffect s ((s.advance.beginCommand (encode i)).setup b e m).startRun
  | raised (w : Word32) (x : Err) (rest : List Event) (hp : s.pending = commandEvent w :: rest)
      (hi : s.phase = .idle) : StepEffect s ((s.advance.beginCommand w).raise x)
  | access (x : HostTxn) (rest : List Event) (hp : s.pending = .host x :: rest) (hx : isAccess x)
      (he : x.expressible s.kbytes = true) : StepEffect s (hostAccess x s.advance)
  | idled (ht : s.pending = [] ∨ ∃ rest, s.pending = .engine :: rest) (hi : s.phase = .idle) :
      StepEffect s s.advance
  | iterated (ht : s.pending = [] ∨ ∃ rest, s.pending = .engine :: rest) (hr : s.phase = .run)
      (hx : 0 < s.wx) (hm : 1 ≤ s.wm) : StepEffect s s.advance.iterate
  | finished (ht : s.pending = [] ∨ ∃ rest, s.pending = .engine :: rest) (hr : s.phase = .run)
      (hx : s.wx = 0) (hl : bytelen s.wr ≤ s.kbytes) : StepEffect s (s.advance.deliver s.wr).endRun
  | reset (rest : List Event) (hp : s.pending = .reset :: rest) : StepEffect s s.advance.resetEvent

theorem stepEffect_commandEvent {s t : State} {w : Word32} {rest : List Event}
    (hp : s.pending = commandEvent w :: rest) (h : step s = .next t) : StepEffect s t := by
  cases hph : s.phase with
  | run =>
    rw [step_commandEvent_run hp hph] at h; cases h
    exact .ignored w rest hp hph
  | idle =>
    rcases step_commandEvent_idle hp hph h with ⟨i, b, e, m, rfl, hargs, hm, rfl⟩ | ⟨x, rfl⟩
    · exact .started i b e m rest hp hph hargs hm
    · exact .raised w x rest hp hph

theorem stepEffect_of_step {s t : State} (h : step s = .next t) : StepEffect s t := by
  rcases step_cases h with ⟨w, i, rest, hp, -, -⟩ | ⟨w, rest, hp, -, -⟩ | ⟨x, rest, hp, hx, he, rfl⟩ | ⟨ht, he⟩ |
    ⟨rest, hp, rfl⟩
  · exact stepEffect_commandEvent hp h
  · exact stepEffect_commandEvent hp h
  · exact .access x rest hp hx he
  · rcases engineStep_cases he with ⟨hi, rfl⟩ | ⟨hr, hx, hm, rfl⟩ | ⟨hr, hx, hl, rfl⟩
    · exact .idled ht hi
    · exact .iterated ht hr hx hm
    · exact .finished ht hr hx hl
  · exact .reset rest hp

end Sys2Proof.Machine
end

section
/-! `Inv` (`10_state.md` R44) at reset, over every step, and over every run from reset. -/

namespace Sys2Proof.Machine

theorem inv_advance {s : State} (h : Inv s) : Inv s.advance := inv_pending h s.pending.tail none

theorem inv_resetWith {kb : Nat} (hmin : Config.minKbytes ≤ kb) (hmax : kb ≤ Config.maxKbytes) :
    Inv (State.resetWith kb) where
  kbytes_range := ⟨hmin, hmax⟩
  reg_lt k := by rw [State.resetWith_reg]; exact Nat.two_pow_pos _
  working_lt := ⟨Nat.two_pow_pos _, Nat.two_pow_pos _, Nat.two_pow_pos _, Nat.two_pow_pos _⟩
  ibuf_ok := ⟨rfl, rfl⟩
  obuf_ok := ⟨rfl, rfl⟩
  idle_clear _ := ⟨rfl, rfl, rfl, rfl⟩
  run_ok hr := nomatch hr
  output_ok := by
    have hout : (State.resetWith kb).output = [] := rfl
    rw [State.resetWith_reg, hout]
    exact ⟨rfl, rfl, fun _ _ => rfl, rfl⟩
  lengths := ⟨Nat.zero_le _, Nat.zero_le _⟩
  error_ok he := absurd rfl he
  done_idle _ := rfl
  errcode_le := Nat.zero_le _

theorem inv_resetEvent {s : State} (h : Inv s) : Inv s.resetEvent :=
  inv_pending (inv_resetWith h.kbytes_range.1 h.kbytes_range.2) s.pending none

/-- Settles O42: each effect of a step keeps the invariant by the lemma of its operation. -/
theorem everyStepKeepsInvariant : Obligations.EveryStepKeepsInvariant := by
  intro s t hs h
  have ha := inv_advance hs
  cases stepEffect_of_step h with
  | ignored => exact ha
  | started i b e m rest hp hi hargs hm =>
    obtain ⟨he, hw⟩ := commandArgs_lt ha.reg_lt hargs
    exact inv_startRun ha i he hm hw
  | raised w x rest hp hi => exact inv_raise ha hi w x
  | access x rest hp hx he => exact inv_access ha he
  | idled => exact ha
  | iterated ht hr => exact inv_iterate ha hr
  | finished ht hr => exact inv_finish ha hr
  | reset => exact inv_resetEvent ha

/-- What every step keeps, every run keeps. -/
theorem runs_preserves {P : State → Prop} (hstep : ∀ s t, P s → step s = .next t → P t) {n : Nat} {s t : State}
    (hs : P s) (h : runs n s t) : P t := by
  induction n generalizing s with
  | zero => exact (runs_zero s t).1 h ▸ hs
  | succ n ih =>
    obtain ⟨u, hu, hrest⟩ := runs_succ_elim h
    exact ih (hstep s u hs hu) hrest

/-- Settles O43: the invariant holds at reset, with whatever is pending, and every step keeps it. -/
theorem reachableStatesMeetInvariant : Obligations.ReachableStatesMeetInvariant := by
  intro kb n es t hmin hmax h
  exact runs_preserves everyStepKeepsInvariant (inv_pending (inv_resetWith hmin hmax) es none) h

/-- Settles O41, by `inv_resetWith`: the capacity of `State.reset` is a legal one. -/
theorem resetMeetsInvariant : Obligations.ResetMeetsInvariant :=
  ⟨fun _ hmin hmax => inv_resetWith hmin hmax, inv_resetWith (by decide) (by decide)⟩

end Sys2Proof.Machine
end

section
/-! What a step writes: the inputs, the outputs, `OP`, `DONE` and the constant `CAP` (`10_state.md` R19 to R37). -/

namespace Sys2Proof.Machine

/-- A step keeps every input but for an access of the host and for reset. -/
theorem step_inputs {s t : State} (h : step s = .next t) :
    SameInputs s.advance t ∨
    (∃ x rest, s.pending = .host x :: rest ∧ t = hostAccess x s.advance) ∨
    (∃ rest, s.pending = .reset :: rest ∧ t = s.advance.resetEvent) := by
  rcases step_cases h with ⟨w, i, rest, -, -, hx⟩ | ⟨w, rest, -, -, rfl⟩ | ⟨x, rest, hp, -, -, rfl⟩ | ⟨-, he⟩ |
    ⟨rest, hp, rfl⟩
  · exact .inl (exec_sameInputs hx)
  · exact .inl (acceptIllegal_sameInputs w s.advance)
  · exact .inr (.inl ⟨x, rest, hp, rfl⟩)
  · exact .inl (engineStep_sameInputs he)
  · exact .inr (.inr ⟨rest, hp, rfl⟩)

/-- Settles O45: of the steps that may change an input, an access writes a register by `WrIR` only. -/
theorem inputRegistersChangeOnlyByHostOrReset : Obligations.InputRegistersChangeOnlyByHostOrReset := by
  intro s t k hk h hne
  rcases step_inputs h with hsame | ⟨x, rest, hp, rfl⟩ | ⟨rest, hp, rfl⟩
  · exact absurd (hsame.1 k hk) hne
  · rcases hostAccess_reg x s.advance k with e | ⟨v, rfl, -, e⟩
    · exact absurd e hne
    · exact .inl ⟨_, v, rest, hp, rfl, e⟩
  · exact .inr ⟨rest, hp, State.resetEvent_reg _ k⟩

/-- Settles O46: of the steps that may change an input, an access writes a byte of `IBUF` by `WrIBUF` only, and `ILEN` by
`WrCtl` of a legal length only. -/
theorem inputBufferChangesOnlyByHostOrReset : Obligations.InputBufferChangesOnlyByHostOrReset := by
  intro s t hwf h
  rcases step_inputs h with ⟨-, hibuf, hilen, -⟩ | ⟨x, rest, hp, rfl⟩ | ⟨rest, hp, -⟩
  · exact ⟨fun a hne => absurd (hibuf a) hne, fun hne => absurd hilen hne⟩
  · constructor
    · intro a hne
      rcases hostAccess_ibuf x s.advance with e | ⟨i, b, rfl, hi, e⟩
      · exact absurd (congrArg (Memory.read · a) e) hne
      · rw [e, State.advance_ibuf, Memory.read_write hwf] at hne ⊢
        by_cases ha : a = i.val
        · exact .inl ⟨i, b, rest, hp, ha.symm, ha ▸ hi, if_pos ha⟩
        · exact absurd (if_neg ha) hne
    · intro hne
      rcases hostAccess_ilen x s.advance with e | ⟨v, rfl, hv, e⟩
      · exact absurd e hne
      · exact .inl ⟨v, rest, hp, hv, e⟩
  · exact ⟨fun _ _ => .inr ⟨rest, hp⟩, fun _ => .inr ⟨rest, hp⟩⟩

@[simp] theorem Err.code_ne_zero (x : Err) : x.code ≠ 0#4 := by cases x <;> decide

theorem hostAccess_sameOutputs (x : HostTxn) (s : State) : SameOutputs s (hostAccess x s) := by
  obtain ⟨-, -, -, -, -, -, -, -, hobuf, holen, hres, -⟩ := hostAccess_frame x s
  exact ⟨hres, fun a => by rw [hobuf], holen⟩

/-- Settles O47: of the effects of a step, only the finish, the error completion and reset write an output. -/
theorem outputsChangeOnlyAtCompletion : Obligations.OutputsChangeOnlyAtCompletion := by
  intro s t h hne
  cases stepEffect_of_step h with
  | ignored => exact absurd (SameOutputs.refl s) hne
  | started => exact absurd (SameOutputs.refl s) hne
  | raised w x rest hp hi => exact .inr (.inl ⟨hi, ⟨w, rest, hp⟩, x.code_ne_zero, rfl, by simp, rfl⟩)
  | access x => exact absurd (hostAccess_sameOutputs x s.advance) hne
  | idled => exact absurd (SameOutputs.refl s) hne
  | iterated => exact absurd (SameOutputs.refl s) hne
  | finished ht hr hx => exact .inl ⟨hr, hx, rfl, rfl, by simp⟩
  | reset rest hp => exact .inr (.inr ⟨rest, hp⟩)

theorem hostAccess_op (x : HostTxn) (s : State) : (hostAccess x s).op = s.op := by
  obtain ⟨-, -, -, -, hop, -⟩ := hostAccess_frame x s
  exact hop

theorem hostAccess_done (x : HostTxn) (s : State) : (hostAccess x s).done = s.done := by
  obtain ⟨-, -, -, -, -, -, hdone, -⟩ := hostAccess_frame x s
  exact hdone

/-- Settles O48: both outcomes of an acceptance keep the word in `OP`, and of the other effects only reset writes it. -/
theorem opWrittenOnlyByAcceptance : Obligations.OpWrittenOnlyByAcceptance := by
  intro s t h
  constructor
  · intro w rest hp hi
    rcases step_commandEvent_idle hp hi h with ⟨i, b, e, m, -, -, -, rfl⟩ | ⟨x, rfl⟩ <;> rfl
  · intro hne
    cases stepEffect_of_step h with
    | ignored => exact absurd rfl hne
    | started i b e m rest hp hi => exact .inl ⟨hi, rest, hp⟩
    | raised w x rest hp hi => exact .inl ⟨hi, rest, hp⟩
    | access x => exact absurd (hostAccess_op x s.advance) hne
    | idled => exact absurd rfl hne
    | iterated => exact absurd rfl hne
    | finished => exact absurd rfl hne
    | reset rest hp => exact .inr ⟨rest, hp, rfl⟩

/-- The engine's turn in RUN with `WX = 0` is the finish step (`40_modpow_engine.md` R82). -/
theorem step_finish {s t : State} (ht : s.pending = [] ∨ ∃ rest, s.pending = .engine :: rest) (hr : s.phase = .run)
    (hx : s.wx = 0) (h : step s = .next t) : t = (s.advance.deliver s.wr).endRun := by
  rw [step_turn ht] at h
  rcases engineStep_cases h with ⟨hi, -⟩ | ⟨-, hpos, -⟩ | ⟨-, -, -, rfl⟩
  · exact absurd (hi.symm.trans hr) (by decide)
  · exact absurd hx (Nat.ne_of_gt hpos)
  · rfl

/-- Settles O49: the two outcomes of an acceptance, the finish step and reset write `DONE`, and no other effect does. -/
theorem doneFlagRule : Obligations.DoneFlagRule := by
  intro s t h
  refine ⟨fun w rest hp hi => ?_, fun ht hr hx => ?_, fun rest hp => ?_, fun hne => ?_⟩
  · rcases step_commandEvent_idle hp hi h with ⟨i, b, e, m, -, -, -, rfl⟩ | ⟨x, rfl⟩
    · simp
    · simp [hi]
  · rw [step_finish ht hr hx h, State.endRun_done]
  · rw [step_reset hp] at h; cases h
    rfl
  · cases stepEffect_of_step h with
    | ignored => exact absurd rfl hne
    | started i b e m rest hp hi => exact .inl ⟨_, rest, hp, hi⟩
    | raised w x rest hp hi => exact .inl ⟨w, rest, hp, hi⟩
    | access x => exact absurd (hostAccess_done x s.advance) hne
    | idled => exact absurd rfl hne
    | iterated => exact absurd rfl hne
    | finished ht hr hx => exact .inr (.inl ⟨hr, hx, rfl⟩)
    | reset rest hp => exact .inr (.inr ⟨rest, hp⟩)

theorem runs_kbytes {n : Nat} {s t : State} (h : runs n s t) : t.kbytes = s.kbytes :=
  runs_preserves (P := fun u => u.kbytes = s.kbytes) (fun _ _ hu hs => (step_kbytes_pending hs).1.trans hu) rfl h

theorem isAccess_wrCtl {r : Fin 65536} (hr : r ≠ CTL.CMD) (v : Word32) : isAccess (.wrCtl r v) := by
  intro w h
  cases h
  exact hr rfl

theorem readCtl_cap (s : State) : readCtl s CTL.CAP = BitVec.ofNat 32 s.kbytes := rfl

theorem writeCtl_cap (s : State) (v : Word32) : writeCtl s CTL.CAP v = s := rfl

/-- Settles O50: no run changes KBYTES, and both transactions on `CAP` are accesses. -/
theorem capIsConstant : Obligations.CapIsConstant := by
  refine ⟨fun _ _ _ => runs_kbytes, fun s rest hp => ?_, fun s v rest hp => ?_⟩
  · rw [step_access hp nofun rfl, advance_eq hp, hostAccess, readCtl_cap]
  · rw [step_access hp (isAccess_wrCtl (by decide) v) rfl, advance_eq hp, hostAccess, writeCtl_cap]

/-- Settles O39: the step of a reset is `State.resetEvent`, which gives each field its value. -/
theorem resetClearsEverything : Obligations.ResetClearsEverything := by
  intro s rest hp
  have hstatus : s.advance.resetEvent.status = 0#32 := State.resetWith_status s.kbytes
  refine ⟨s.advance.resetEvent, step_reset hp, ?_⟩
  simp [Memory.read, hstatus, hp]

end Sys2Proof.Machine
end

section
/-! What the host sees and places: the working registers are hidden (`10_state.md` R27), the bits of `STATUS`
(`10_state.md` R35), and a command's word placed as the next event (log 8). -/

namespace Sys2Proof.Machine

/-- `s` with other values in the working registers. -/
def State.withWorking (s : State) (b e m r : Nat) : State := { s with wb := b, wx := e, wm := m, wr := r }

@[simp] theorem State.withWorking_kbytes (s : State) (b e m r : Nat) : (s.withWorking b e m r).kbytes = s.kbytes := rfl

/-- An access neither reads nor writes a working register (`10_state.md` R27). -/
theorem hostAccess_withWorking (x : HostTxn) (s : State) (b e m r : Nat) :
    hostAccess x (s.withWorking b e m r) = (hostAccess x s).withWorking b e m r := by
  cases x with
  | rdCtl c => rfl
  | rdIR k => rfl
  | rdIBUF i => rfl
  | rdOBUF i => rfl
  | wrIR k v => by_cases hk : k.val < 11 <;> simp [hostAccess, writeIR, State.setReg, State.withWorking, hk]
  | wrIBUF i v => by_cases hi : i.val < s.kbytes <;> simp [hostAccess, writeIBUF, State.withWorking, hi]
  | wrCtl c v =>
    by_cases hc : c = CTL.ILEN
    · by_cases hv : v.toNat ≤ s.kbytes <;> simp [hostAccess, writeCtl, State.withWorking, hc, hv]
    · simp [hostAccess, writeCtl, hc]

/-- Settles O37: the step of such a transaction is its access, which commutes with `State.withWorking`. -/
theorem workingRegistersAreHidden : Obligations.WorkingRegistersAreHidden := by
  intro s t x rest b e m r hp hx h
  cases he : x.expressible s.kbytes with
  | false => rw [step_inexpressible hp he] at h; cases h
  | true =>
    rw [step_access hp hx he] at h; cases h
    have hstep : step (s.withWorking b e m r) = .next (hostAccess x (s.withWorking b e m r).advance) :=
      step_access hp hx he
    exact hstep.trans (congrArg Host.Outcome.next (hostAccess_withWorking x s.advance b e m r))

/-- Settles O5: the word placed is the command's own, and it decodes to the command. -/
theorem stepRunsPlacedCommand : Obligations.StepRunsPlacedCommand := by
  intro s i
  have hword : BitVec.ofNat 32 ((encode i).toNat % 2 ^ 32) = encode i := by
    rw [Nat.mod_eq_of_lt (encode i).isLt, BitVec.ofNat_toNat, BitVec.setWidth_eq]
  have hp : (s.withFetchWord 32 (encode i).toNat).pending = commandEvent (encode i) :: s.pending := by
    rw [State.withFetchWord, hword]; rfl
  rw [step_command hp (decode_encode i), advance_eq hp]
  rfl

/-- `STATUS` of an error code and the three flags (`10_state.md` R35). -/
def packStatus (code : BitVec 4) (err done busy : Bool) : Word32 :=
  0#24 ++ code ++ 0#1 ++ BitVec.ofBool err ++ BitVec.ofBool done ++ BitVec.ofBool busy

theorem status_eq_packStatus (s : State) : s.status = packStatus s.errcode s.err s.done s.busy := rfl

theorem packStatus_fields : ∀ (code : BitVec 4) (err done busy : Bool),
    (packStatus code err done busy).getLsbD 0 = busy ∧ (packStatus code err done busy).getLsbD 1 = done ∧
    (packStatus code err done busy).getLsbD 2 = err ∧ (packStatus code err done busy).getLsbD 3 = false ∧
    (packStatus code err done busy).extractLsb' 4 4 = code ∧
    (packStatus code err done busy).extractLsb' 8 24 = 0#24 := by
  decide

/-- Settles O28: the fields of the packed word, with `BUSY` and `ERR` read back through their definitions. -/
theorem statusFields : Obligations.StatusFields := by
  intro s
  obtain ⟨hbusy, hdone, herr, hzero, hcode, hhigh⟩ := packStatus_fields s.errcode s.err s.done s.busy
  rw [status_eq_packStatus]
  refine ⟨?_, by rw [hdone], ?_, hzero, hcode, hhigh⟩
  · rw [hbusy, State.busy, decide_eq_true_eq]
  · rw [herr, State.err, bne_iff_ne]

end Sys2Proof.Machine
end

section
/-! A host write and the engine's turn commute (`20_memory.md` R59, `43_host_interface.md` R115). -/

namespace Sys2Proof.Machine

/-- A write of the host to a register, a byte of `IBUF` or a control register; a command is none (R115). -/
def HostTxn.IsWrite (x : HostTxn) : Prop :=
  (∃ k v, x = .wrIR k v) ∨ (∃ i b, x = .wrIBUF i b) ∨ (∃ r v, x = .wrCtl r v ∧ r ≠ CTL.CMD)

theorem HostTxn.IsWrite.isAccess {x : HostTxn} (hx : x.IsWrite) : isAccess x := by
  rcases hx with ⟨k, v, rfl⟩ | ⟨i, b, rfl⟩ | ⟨r, v, rfl, hr⟩
  · nofun
  · nofun
  · exact isAccess_wrCtl hr v

/-- `f` keeps KBYTES and does not touch what the host can write: it commutes with each store to an input. -/
structure CommutesWithInputStores (f : State → State) : Prop where
  kbytes : ∀ s, (f s).kbytes = s.kbytes
  setReg : ∀ s k v, k ≠ IR.RES → f (s.setReg k v) = (f s).setReg k v
  ibuf : ∀ s a b, f { s with ibuf := Memory.write s.ibuf a b } = { f s with ibuf := Memory.write (f s).ibuf a b }
  ilen : ∀ s n, f { s with ilen := n } = { f s with ilen := n }

/-- A host write is a store to an input, or is ignored; which of the two, only KBYTES and the transaction say. -/
theorem hostAccess_commutes {f : State → State} (hf : CommutesWithInputStores f) {x : HostTxn} (hx : x.IsWrite)
    (s : State) : hostAccess x (f s) = f (hostAccess x s) := by
  rcases hx with ⟨k, v, rfl⟩ | ⟨i, b, rfl⟩ | ⟨r, v, rfl, -⟩
  · by_cases hk : k.val < 11
    · have hres : (⟨k.val, Nat.lt_succ_of_lt hk⟩ : Fin 12) ≠ IR.RES := Fin.ne_of_val_ne (Nat.ne_of_lt hk)
      simp only [hostAccess, writeIR, hk, dif_pos, hf.setReg _ _ _ hres]
    · simp only [hostAccess, writeIR, hk, dif_neg, not_false_eq_true]
  · by_cases hi : i.val < s.kbytes <;> simp [hostAccess, writeIBUF, hf.kbytes, hf.ibuf, hi]
  · by_cases hr : r = CTL.ILEN
    · by_cases hv : v.toNat ≤ s.kbytes <;> simp [hostAccess, writeCtl, hf.kbytes, hf.ilen s v.toNat, hr, hv]
    · simp [hostAccess, writeCtl, hr]

theorem commutesWithInputStores_advance : CommutesWithInputStores State.advance :=
  ⟨fun _ => rfl, fun _ _ _ _ => rfl, fun _ _ _ => rfl, fun _ _ => rfl⟩

theorem commutesWithInputStores_iterate : CommutesWithInputStores State.iterate :=
  ⟨fun _ => rfl, fun _ _ _ _ => rfl, fun _ _ _ => rfl, fun _ _ => rfl⟩

theorem commutesWithInputStores_finish (v : Nat) : CommutesWithInputStores fun s => (s.deliver v).endRun where
  kbytes _ := rfl
  setReg s k w hk := congrArg State.endRun (setReg_deliver s k w v hk)
  ibuf _ _ _ := rfl
  ilen _ _ := rfl

/-- The host can write nothing the engine reads, and the engine writes nothing the host can write (R59). -/
theorem engineStep_hostAccess {x : HostTxn} (hx : x.IsWrite) {s t : State} (h : engineStep s = .next t) :
    engineStep (hostAccess x s) = .next (hostAccess x t) := by
  obtain ⟨-, hwx, hwm, hwr, -, hphase, -, -, -, -, -, hkbytes, -⟩ := hostAccess_frame x s
  rcases engineStep_cases h with ⟨hi, rfl⟩ | ⟨hr, hpos, hm, rfl⟩ | ⟨hr, hzero, hl, rfl⟩
  · exact engineStep_idle (hphase.trans hi)
  · rw [engineStep_iterate (hphase.trans hr) (hwx ▸ hpos) (hwm ▸ hm),
      hostAccess_commutes commutesWithInputStores_iterate hx]
  · rw [engineStep_finish (hphase.trans hr) (hwx.trans hzero) (by rw [hwr, hkbytes]; exact hl), hwr,
      hostAccess_commutes (commutesWithInputStores_finish s.wr) hx]

/-- The engine's turn neither reads nor writes what is pending or was returned. -/
theorem engineStep_advance {s t : State} (h : engineStep s = .next t) : engineStep s.advance = .next t.advance := by
  rcases engineStep_cases h with ⟨hi, rfl⟩ | ⟨hr, hpos, hm, rfl⟩ | ⟨hr, hzero, hl, rfl⟩
  · exact engineStep_idle hi
  · exact engineStep_iterate hr hpos hm
  · exact engineStep_finish hr hzero hl

theorem runs_engine_write {x : HostTxn} (hx : x.IsWrite) {s t : State} {rest : List Event}
    (hp : s.pending = .engine :: .host x :: rest) (he : x.expressible s.kbytes = true)
    (h : engineStep s.advance = .next t) : runs 2 s (hostAccess x t.advance) := by
  obtain ⟨-, -, -, hkbytes, hpending, -⟩ := engineStep_sameInputs h
  have hp' : t.pending = .host x :: rest := by rw [hpending, State.advance_pending, hp, List.tail_cons]
  have he' : x.expressible t.kbytes = true := by rw [hkbytes]; exact he
  exact runs_two ((step_engine hp).trans h) (step_access hp' hx.isAccess he')

theorem runs_write_engine {x : HostTxn} (hx : x.IsWrite) {s t : State} {rest : List Event}
    (hp : s.pending = .host x :: .engine :: rest) (he : x.expressible s.kbytes = true)
    (h : engineStep s.advance.advance = .next t) : runs 2 s (hostAccess x t) := by
  obtain ⟨-, -, -, -, -, -, -, -, -, -, -, -, hpending⟩ := hostAccess_frame x s.advance
  have hp' : (hostAccess x s.advance).pending = .engine :: rest := by
    rw [hpending, State.advance_pending, hp, List.tail_cons]
  refine runs_two (step_access hp hx.isAccess he) ?_
  rw [step_engine hp', ← hostAccess_commutes commutesWithInputStores_advance hx]
  exact engineStep_hostAccess hx h

/-- Settles O38: the invariant lets the engine's turn answer, and the write commutes with it, so both orders end in the
write made on the engine's outcome. -/
theorem hostWritesAndEngineCommute : Obligations.HostWritesAndEngineCommute := by
  intro s x rest hinv _ hx he
  obtain ⟨t, ht⟩ := engineStep_next (inv_pending hinv (.host x :: rest) none)
  have hadvance := engineStep_advance ht
  exact ⟨hostAccess x t.advance, runs_write_engine hx rfl he hadvance, runs_engine_write hx rfl he ht⟩

end Sys2Proof.Machine
end

section
/-! The input value (`20_memory.md` R46). -/

namespace Sys2Proof.Machine

theorem State.inputValue_eq_sum (s : State) :
    s.inputValue = ∑ i ∈ Finset.range s.ilen, (Memory.read s.ibuf i).toNat * 256 ^ (s.ilen - 1 - i) := by
  simp only [State.inputValue, State.input, Memory.readBytes, os2ip_eq_sum, Nat.zero_add]

/-- Settles O51: the sum is `os2ip_eq_sum` of the bytes read; it names no byte from `ILEN` on, and has no term where
`ILEN = 0`. -/
theorem inputDecodeIsBigEndian : Obligations.InputDecodeIsBigEndian := by
  intro s
  refine ⟨s.inputValue_eq_sum, fun t hlen hbytes => ?_, fun hzero => ?_, State.inputValue_lt⟩
  · rw [t.inputValue_eq_sum, s.inputValue_eq_sum, hlen]
    exact Finset.sum_congr rfl fun i hi => by rw [hbytes i (Finset.mem_range.1 hi)]
  · rw [s.inputValue_eq_sum, hzero, Finset.sum_range_zero]

end Sys2Proof.Machine
end

section
/-! Inert locations (`20_memory.md` R56). -/

namespace Sys2Proof.Machine

theorem readIR_reserved (s : State) {k : Fin 16} (hk : 12 ≤ k.val) : readIR s k = 0 := dif_neg (Nat.not_lt.2 hk)

theorem readCtl_reserved (s : State) {r : Fin 65536} (hr : 5 ≤ r.val) : readCtl s r = 0#32 := by
  have hne : ∀ c : Fin 65536, c.val < 5 → r ≠ c := fun c hc e => absurd (e ▸ hr) (Nat.not_le.2 hc)
  simp [readCtl, hne]

theorem readBuffer_outside {s : State} {i : Fin 65536} (hi : s.kbytes ≤ i.val) (m : Memory) :
    readBuffer s m i = 0#8 := if_neg (Nat.not_lt.2 hi)

/-- `RES` is read only, and 12 to 15 are reserved. -/
theorem writeIR_inert (s : State) {k : Fin 16} (hk : 11 ≤ k.val) (v : Nat) : writeIR s k v = s :=
  dif_neg (Nat.not_lt.2 hk)

theorem writeCtl_inert (s : State) {r : Fin 65536} (hr : r ≠ CTL.ILEN) (v : Word32) : writeCtl s r v = s := if_neg hr

theorem writeIBUF_outside {s : State} {i : Fin 65536} (hi : s.kbytes ≤ i.val) (b : Byte) : writeIBUF s i b = s :=
  if_neg (Nat.not_lt.2 hi)

/-- Settles O35: the step of each transaction is its access, which returns 0 or keeps the state there. -/
theorem inertLocations : Obligations.InertLocations := by
  intro s rest
  refine ⟨fun k hk hp => ?_, fun r hr hp => ?_, fun i hi hp => ?_, fun k v hk hv hp => ?_, fun r v hr hp => ?_,
    fun i b hi hp => ?_⟩
  · rw [step_access hp nofun rfl, hostAccess, readIR_reserved _ hk, advance_eq hp]
  · rw [step_access hp nofun rfl, hostAccess, readCtl_reserved _ hr, advance_eq hp]
  · have hout : s.advance.kbytes ≤ i.val := hi
    rcases hp with hp | hp
    · rw [step_access hp nofun rfl, hostAccess, readBuffer_outside hout, advance_eq hp]
    · rw [step_access hp nofun rfl, hostAccess, readBuffer_outside hout, advance_eq hp]
  · rw [step_access hp nofun (decide_eq_true hv), hostAccess, writeIR_inert _ hk, advance_eq hp]
  · have hcmd : r ≠ CTL.CMD := by rintro rfl; simp at hr
    have hilen : r ≠ CTL.ILEN := by rintro rfl; simp at hr
    rw [step_access hp (isAccess_wrCtl hcmd v) rfl, hostAccess, writeCtl_inert _ hilen, advance_eq hp]
  · have hout : s.advance.kbytes ≤ i.val := hi
    rw [step_access hp nofun rfl, hostAccess, writeIBUF_outside hout, advance_eq hp]

end Sys2Proof.Machine
end

section
/-! The command words: `decode` against `encode`, the opcode table and the host's numbering (`30_encoding.md` R64,
R66, R74), and a word that is no command's. -/

namespace Sys2Proof

theorem decode_eq_command_iff (w : Word32) (i : Instr) : decode w = .command i ↔ w = encode i :=
  ⟨eq_encode_of_decode, fun h => h ▸ decode_encode i⟩

/-- The host's numbering of a 32-bit word is `decode` of the word (`20_memory.md` R51). -/
theorem decodeTableWord_toNat (w : Word32) (i : Instr) :
    decodeTableWord 32 w.toNat = some i ↔ decode w = .command i := by
  have hlt : w.toNat % 2 ^ 32 < 2 ^ 32 := Nat.mod_lt _ (Nat.two_pow_pos 32)
  have hword : BitVec.ofNat 32 (w.toNat % 2 ^ 32) = w := by
    rw [Nat.mod_eq_of_lt w.isLt, BitVec.ofNat_toNat, BitVec.setWidth_eq]
  rw [decodeTableWord, if_pos hlt, hword]
  cases decode w <;> simp

/-- Settles O3: a word decodes to a command exactly when it is that command's word, and the host's numbering is
`decode`. -/
theorem decodeEncodeAgree : Obligations.DecodeEncodeAgree := fun w =>
  ⟨fun i _ => decode_encode i, fun _ h => (eq_encode_of_decode h).symm,
    (decode_illegal_iff w).trans (forall_congr' fun _ => ne_comm), decodeTableWord_toNat w⟩

/-- The rows of the table of `30_encoding.md` R64: one for each command, which matches its whole word. -/
theorem mem_opcodeTable_iff (row : OpcodeRow) :
    row ∈ opcodeTable ↔ row.matchBits = encode row.instr ∧ row.mask = 0xFFFFFFFF#32 := by
  obtain ⟨i, bits, mask⟩ := row
  cases i <;> simp [opcodeTable, encode]

/-- Settles O2: the one row of a command matches the whole of its word. -/
theorem decodeSelectsByMaskAndMatch : Obligations.DecodeSelectsByMaskAndMatch := by
  intro w i
  constructor
  · rw [decode_eq_command_iff]
    constructor
    · rintro rfl
      exact ⟨⟨i, encode i, 0xFFFFFFFF#32⟩, (mem_opcodeTable_iff _).2 ⟨rfl, rfl⟩, rfl, and_mask _⟩
    · rintro ⟨row, hrow, rfl, hsel⟩
      obtain ⟨hbits, hmask⟩ := (mem_opcodeTable_iff row).1 hrow
      rwa [hmask, and_mask, hbits] at hsel
  · rw [decode_eq_command_iff]
    cases i <;> exact Iff.rfl

/-- Settles O1, by evaluating `decode` on each of the seven words. -/
theorem decodeWrittenOutWords : Obligations.DecodeWrittenOutWords := ⟨rfl, rfl, rfl, rfl, rfl, rfl, rfl⟩

end Sys2Proof

namespace Sys2Proof.Machine

/-- Settles O6: such a word is no command's, so its acceptance raises `ILLEGAL_COMMAND` in IDLE; in RUN every word is
ignored. -/
theorem illegalWordCompletesWithError : Obligations.IllegalWordCompletesWithError := by
  intro s w rest hp h1 h2 h3
  have hdecode : decode w = .illegal := (decode_illegal_iff w).2 fun i => by cases i <;> assumption
  rw [← advance_eq hp]
  constructor
  · intro hi
    have hi' : s.advance.phase = .idle := hi
    have herr := errorCompletion_raise hi' w .illegalCommand
    exact ⟨_, (step_illegal hp hdecode).trans (congrArg _ (acceptIllegal_idle hi')), herr, rfl, status_of_error herr⟩
  · exact step_commandEvent_run hp

end Sys2Proof.Machine
end

section
/-! The frame of a command (`30_encoding.md` R65, `43_host_interface.md` R113) and the values of `STATUS`
(`30_encoding.md` R72). -/

namespace Sys2Proof.Machine

/-- Settles O11: in IDLE a command starts its operation, with `ERRCODE` 0, or raises its error, whose code is not 0. -/
theorem commandFrame : Obligations.CommandFrame := by
  intro i s t h
  refine ⟨exec_sameInputs h, ?_⟩
  cases hp : s.phase with
  | run =>
    rw [exec_run hp] at h; cases h
    exact ⟨fun _ => rfl, nofun, nofun⟩
  | idle =>
    rcases exec_idle hp i with ⟨b, e, m, -, -, hx⟩ | ⟨x, -, hx⟩ <;> rw [hx] at h <;> cases h
    · exact ⟨nofun, fun _ _ => ⟨SameOutputs.refl s, rfl, rfl⟩, fun _ hcode => absurd rfl hcode⟩
    · exact ⟨nofun, fun _ hcode => absurd hcode x.code_ne_zero, fun _ _ => ⟨rfl, rfl, rfl, rfl, hp, rfl⟩⟩

theorem status_of_fields {s : State} {p : Phase} {d : Bool} {c : BitVec 4} (hp : s.phase = p) (hd : s.done = d)
    (hc : s.errcode = c) : s.status = packStatus c (c != 0#4) d (decide (p = .run)) := by
  subst hp hd hc; rfl

/-- The codes up to 3 are 0 and those of the three errors (`60_exceptions.md` R122). -/
theorem errcode_cases {c : BitVec 4} (h : c.toNat ≤ 3) : c = 0#4 ∨ ∃ x : Err, c = x.code := by
  have hc : c.toNat = 0 ∨ c.toNat = 1 ∨ c.toNat = 2 ∨ c.toNat = 3 := by omega
  rcases hc with hc | hc | hc | hc
  · exact .inl (BitVec.eq_of_toNat_eq hc)
  · exact .inr ⟨.messageTooLong, BitVec.eq_of_toNat_eq hc⟩
  · exact .inr ⟨.invalidParameters, BitVec.eq_of_toNat_eq hc⟩
  · exact .inr ⟨.illegalCommand, BitVec.eq_of_toNat_eq hc⟩

/-- What `PHASE`, `DONE` and `ERRCODE` are together, under the invariant (`10_state.md` R44 (b), (e), (g)). -/
theorem phase_done_errcode_cases {s : State} (h : Inv s) :
    (s.phase = .run ∧ s.done = false ∧ s.errcode = 0#4) ∨ (s.phase = .idle ∧ s.errcode = 0#4) ∨
      (s.phase = .idle ∧ s.done = true ∧ ∃ x : Err, s.errcode = x.code) := by
  rcases errcode_cases h.errcode_le with hc | ⟨x, hc⟩
  · cases hp : s.phase with
    | run =>
      obtain ⟨-, -, -, hd, -⟩ := h.run_ok hp
      exact .inl ⟨rfl, hd, hc⟩
    | idle => exact .inr (.inl ⟨rfl, hc⟩)
  · obtain ⟨hd, hi, -⟩ := h.error_ok (hc ▸ x.code_ne_zero)
    exact .inr (.inr ⟨hi, hd, x, hc⟩)

/-- The rows of the table of `30_encoding.md` R72: a value of `STATUS` with `PHASE`, `DONE` and `ERRCODE`. -/
theorem status_six_rows {s : State} (h : Inv s) :
    (s.status = 0x00000000#32 ∧ s.phase = .idle ∧ s.done = false ∧ s.errcode = 0#4) ∨
    (s.status = 0x00000001#32 ∧ s.phase = .run ∧ s.done = false ∧ s.errcode = 0#4) ∨
    (s.status = 0x00000002#32 ∧ s.phase = .idle ∧ s.done = true ∧ s.errcode = 0#4) ∨
    (s.status = 0x00000016#32 ∧ s.phase = .idle ∧ s.done = true ∧ s.errcode = Err.messageTooLong.code) ∨
    (s.status = 0x00000026#32 ∧ s.phase = .idle ∧ s.done = true ∧ s.errcode = Err.invalidParameters.code) ∨
    (s.status = 0x00000036#32 ∧ s.phase = .idle ∧ s.done = true ∧ s.errcode = Err.illegalCommand.code) := by
  rcases phase_done_errcode_cases h with ⟨hr, hd, hc⟩ | ⟨hi, hc⟩ | ⟨hi, hd, x, hc⟩
  · exact .inr (.inl ⟨status_of_fields hr hd hc, hr, hd, hc⟩)
  · cases hd : s.done with
    | false => exact .inl ⟨status_of_fields hi hd hc, hi, rfl, hc⟩
    | true => exact .inr (.inr (.inl ⟨status_of_fields hi hd hc, hi, rfl, hc⟩))
  · have hs := status_of_fields hi hd hc
    cases x with
    | messageTooLong => exact .inr (.inr (.inr (.inl ⟨hs, hi, hd, hc⟩)))
    | invalidParameters => exact .inr (.inr (.inr (.inr (.inl ⟨hs, hi, hd, hc⟩))))
    | illegalCommand => exact .inr (.inr (.inr (.inr (.inr ⟨hs, hi, hd, hc⟩))))

/-- Settles O29: the six rows under the invariant, which every state reached from reset meets. -/
theorem statusSixValues : Obligations.StatusSixValues := by
  refine ⟨fun kb n es s hmin hmax hruns => ?_, fun s => status_six_rows⟩
  rcases status_six_rows (reachableStatesMeetInvariant kb n es s hmin hmax hruns) with
    ⟨hs, -⟩ | ⟨hs, -⟩ | ⟨hs, -⟩ | ⟨hs, -⟩ | ⟨hs, -⟩ | ⟨hs, -⟩ <;> simp [hs]

end Sys2Proof.Machine
end

section
/-! The host script's `LOAD` and `UNLOAD` (`30_encoding.md` R71). -/

namespace Sys2Proof.Machine

/-- A sequence that fits a buffer has its offsets and its length below `2^16`. -/
theorem val_ofNat_of_lt_kbytes {n kb : Nat} (hn : n < kb) (hkb : kb ≤ Config.maxKbytes) :
    (Fin.ofNat 65536 n).val = n := by
  have hmax : Config.maxKbytes = 65535 := rfl
  exact Nat.mod_eq_of_lt (by omega)

/-! `LOAD`. -/

theorem step_wrIBUF {s : State} {i : Fin 65536} {b : Byte} {rest : List Event}
    (hp : s.pending = .host (.wrIBUF i b) :: rest) (hi : i.val < s.kbytes) :
    step s = .next { s with pending := rest, reply := none, ibuf := Memory.write s.ibuf i.val b } := by
  rw [step_access hp nofun rfl, advance_eq hp, hostAccess, writeIBUF, if_pos hi]

theorem step_wrCtl_ilen {s : State} {v : Word32} {rest : List Event}
    (hp : s.pending = .host (.wrCtl CTL.ILEN v) :: rest) (hv : v.toNat ≤ s.kbytes) :
    step s = .next { s with pending := rest, reply := none, ilen := v.toNat } := by
  rw [step_access hp (isAccess_wrCtl (by decide) v) rfl, advance_eq hp, hostAccess, writeCtl, if_pos rfl, if_pos hv]

/-- The byte writes of a `LOAD` from an offset on, and then its write of `ILEN`. -/
theorem runs_loadBytes {s : State} {off : Nat} {bs : List Byte} {v : Word32} {rest : List Event}
    (hp : s.pending = (loadBytes off bs).map .host ++ .host (.wrCtl CTL.ILEN v) :: rest)
    (hfit : off + bs.length ≤ s.kbytes) (hkb : s.kbytes ≤ Config.maxKbytes) (hv : v.toNat ≤ s.kbytes) :
    runs (bs.length + 1) s
      { s with pending := rest, reply := none, ibuf := Memory.writeBytes s.ibuf off bs, ilen := v.toNat } := by
  induction bs generalizing s off with
  | nil => exact runs_one (step_wrCtl_ilen hp hv)
  | cons b bs ih =>
    rw [List.length_cons] at hfit ⊢
    have hoff : (Fin.ofNat 65536 off).val = off := val_ofNat_of_lt_kbytes (by omega) hkb
    have hstep := step_wrIBUF hp (by omega)
    rw [hoff] at hstep
    refine (runs_succ hstep).2 (ih rfl ?_ hkb hv)
    show off + 1 + bs.length ≤ s.kbytes
    omega

theorem Memory.readBytes_writeBytes {m : Memory} (h : Memory.wf m = true) (off : Nat) (bs : List Byte) :
    Memory.readBytes (Memory.writeBytes m off bs) off bs.length = bs := by
  refine List.ext_getElem (by simp) fun i _ hi => ?_
  simp [Memory.readBytes, Memory.read_writeBytes h, hi]

/-- Settles O56: the run of the load's transactions leaves the sequence written at offset 0 and `ILEN` its length. -/
theorem loadSetsInput : Obligations.LoadSetsInput := by
  intro s bs rest hwf hfit hkb hp
  have hlen : (BitVec.ofNat 32 bs.length).toNat = bs.length := by
    have hmax : Config.maxKbytes = 65535 := rfl
    exact Nat.mod_eq_of_lt (by omega)
  have hp' : s.pending =
      (loadBytes 0 bs).map .host ++ .host (.wrCtl CTL.ILEN (BitVec.ofNat 32 bs.length)) :: rest := by
    simpa [scriptEvents, ScriptLine.expand] using hp
  have hruns := runs_loadBytes hp' (by omega) hkb (by omega)
  have hinput : Memory.readBytes (Memory.writeBytes s.ibuf 0 bs) 0 bs.length = bs :=
    Memory.readBytes_writeBytes hwf 0 bs
  rw [hlen] at hruns
  refine ⟨_, hruns, hinput, rfl, congrArg os2ip hinput, rfl, fun a ha => ?_⟩
  exact (Memory.read_writeBytes hwf 0 bs a).trans (if_neg (by omega))

/-! `UNLOAD`. -/

theorem step_rdCtl {s : State} {r : Fin 65536} {rest : List Event} (hp : s.pending = .host (.rdCtl r) :: rest) :
    step s = .next { s with pending := rest, reply := some (.ctl (readCtl s r)) } := by
  rw [step_access hp nofun rfl, advance_eq hp]
  rfl

theorem step_rdOBUF {s : State} {i : Fin 65536} {rest : List Event} (hp : s.pending = .host (.rdOBUF i) :: rest) :
    step s = .next { s with pending := rest, reply := some (.byte (readBuffer s s.obuf i)) } := by
  rw [step_access hp nofun rfl, advance_eq hp]
  rfl

/-- Reads of `OBUF` in a row change nothing but what is pending and what was returned last. -/
theorem runs_rdOBUF {s : State} {is : List (Fin 65536)} {rest : List Event}
    (hp : s.pending = is.map (.host <| .rdOBUF ·) ++ rest) :
    ∃ r, runs is.length s { s with pending := rest, reply := r } := by
  induction is generalizing s with
  | nil =>
    obtain rfl : s.pending = rest := hp
    exact ⟨s.reply, (runs_zero _ _).2 rfl⟩
  | cons i is ih =>
    obtain ⟨r, hr⟩ := ih (s := { s with
      pending := is.map (.host <| .rdOBUF ·) ++ rest, reply := some (.byte (readBuffer s s.obuf i)) }) rfl
    exact ⟨r, (runs_succ (step_rdOBUF hp)).2 hr⟩

/-- The offsets that `UNLOAD` reads where `RDC OLEN` returns `n`. -/
def unloadOffsets (n : Nat) : List (Fin 65536) := (List.range n).map (Fin.ofNat 65536)

@[simp] theorem length_unloadOffsets (n : Nat) : (unloadOffsets n).length = n := by simp [unloadOffsets]

theorem scriptEvents_unload (n : Nat) : scriptEvents [.unload n] =
    .host (.rdCtl CTL.OLEN) :: (unloadOffsets n).map (.host <| .rdOBUF ·) := by
  simp [scriptEvents, ScriptLine.expand, unloadOffsets]

/-- The offsets before the one at place `i`, that one, and those after it. -/
theorem unloadOffsets_split {n i : Nat} (hi : i < n) : ∃ after : List (Fin 65536),
    unloadOffsets n = (unloadOffsets n).take i ++ Fin.ofNat 65536 i :: after := by
  refine ⟨(unloadOffsets n).drop (i + 1), ?_⟩
  have hget : Fin.ofNat 65536 i = (unloadOffsets n)[i]'(by simpa using hi) := by simp [unloadOffsets]
  rw [hget, ← List.drop_eq_getElem_cons, List.take_append_drop]

/-- The read of `OLEN` and then reads of `OBUF` change nothing either. -/
theorem runs_rdOLEN_rdOBUF {s : State} {is : List (Fin 65536)} {rest : List Event}
    (hp : s.pending = .host (.rdCtl CTL.OLEN) :: (is.map (.host <| .rdOBUF ·) ++ rest)) :
    ∃ r, runs (is.length + 1) s { s with pending := rest, reply := r } := by
  obtain ⟨r, hr⟩ := runs_rdOBUF (s := { s with
    pending := is.map (.host <| .rdOBUF ·) ++ rest, reply := some (.ctl (readCtl s CTL.OLEN)) }) rfl
  exact ⟨r, (runs_succ (step_rdCtl hp)).2 hr⟩

/-- The read of `OBUF` at a place in the output returns its byte: `OLEN` is at most KBYTES (`10_state.md` R44 (d)). -/
theorem readBuffer_obuf_eq_output {s : State} (h : Inv s) {i : Nat} (hi : i < s.olen) :
    readBuffer s s.obuf (Fin.ofNat 65536 i) = s.output.getD i 0#8 := by
  have hlt : i < s.kbytes := Nat.lt_of_lt_of_le hi h.lengths.2
  have hval : (Fin.ofNat 65536 i).val = i := val_ofNat_of_lt_kbytes hlt h.kbytes_range.2
  rw [readBuffer, hval, if_pos hlt]
  simp [State.output, Memory.readBytes, hi]

/-- Settles O57: the reads before a byte of the output change only what is pending, so its own read returns it. -/
theorem unloadReturnsOutput : Obligations.UnloadReturnsOutput := by
  intro s rest hinv hp
  rw [scriptEvents_unload, List.cons_append] at hp
  refine ⟨⟨_, runs_one (step_rdCtl hp), rfl⟩, fun i hi => ?_, ?_⟩
  · obtain ⟨after, hsplit⟩ := unloadOffsets_split hi
    rw [hsplit, List.map_append, List.append_assoc] at hp
    obtain ⟨r, hbefore⟩ := runs_rdOLEN_rdOBUF hp
    rw [List.length_take, length_unloadOffsets, Nat.min_eq_left (Nat.le_of_lt hi)] at hbefore
    have hread := runs_add hbefore (runs_one (step_rdOBUF rfl))
    exact ⟨_, hread, congrArg (some <| Reply.byte ·) (readBuffer_obuf_eq_output hinv hi)⟩
  · obtain ⟨r, hruns⟩ := runs_rdOLEN_rdOBUF hp
    rw [length_unloadOffsets] at hruns
    exact ⟨_, hruns, rfl⟩

end Sys2Proof.Machine
end

section
/-! One turn of the engine (`40_modpow_engine.md` R80 to R82, R89): which step it is, what the step does, and what it
leaves alone. -/

namespace Sys2Proof.Machine

/-- Settles O13: the turn is the iteration of `State.iterate`, whose two remainders are below `WM`. -/
theorem Engine.iterationStep : Obligations.IterationStep := by
  intro s ht hr hx hm
  have hstep : step s = .next s.advance.iterate := (step_turn ht).trans (engineStep_iterate hr hx hm)
  refine ⟨s.advance.iterate, hstep, rfl, fun hodd => if_pos hodd, fun heven => if_neg (by simp [heven]), ?_, rfl,
    Nat.mod_lt _ hm, iter_wr_lt s.advance 1⟩
  exact Nat.shiftRight_one s.wx

/-- Settles O14: the turn delivers `WR`, whose encoding fits `OBUF` because `WR` is a W-bit value, and ends the run. -/
theorem Engine.finishStep : Obligations.FinishStep := by
  intro s ht hr hx hw
  have hfit : bytelen s.wr ≤ s.kbytes := bytelen_le_of_lt_width hw
  have hengine : engineStep s.advance = .next (s.advance.deliver s.wr).endRun := engineStep_finish hr hx hfit
  exact ⟨_, (step_turn ht).trans hengine, finished_finish s.advance s.wr, engineStep_sameInputs hengine, hfit⟩

/-- The engine's turn neither reads nor writes `OP` (`40_modpow_engine.md` R80). -/
theorem engineStep_withOp {s t : State} (h : engineStep s = .next t) (w : Word32) :
    engineStep { s with op := w } = .next { t with op := w } := by
  rcases engineStep_cases h with ⟨hi, rfl⟩ | ⟨hr, hx, hm, rfl⟩ | ⟨hr, hx, hl, rfl⟩
  · exact engineStep_idle hi
  · exact engineStep_iterate hr hx hm
  · exact engineStep_finish hr hx hl

/-- Settles O15: the phase and `WX` alone select the engine's step. -/
theorem engineStepSelection : Obligations.EngineStepSelection := by
  intro s ht
  refine ⟨fun hi => (step_turn ht).trans (engineStep_idle hi), fun t hr h => ⟨fun hx => ?_, fun hx => ?_⟩,
    fun t w h => ?_⟩
  · rw [step_turn ht] at h
    rcases engineStep_cases h with ⟨hi, -⟩ | ⟨-, -, -, rfl⟩ | ⟨-, hzero, -⟩
    · exact absurd (hi.symm.trans hr) (by decide)
    · exact ⟨hr, Nat.shiftRight_one s.wx, rfl⟩
    · exact absurd hzero (Nat.ne_of_gt hx)
  · rw [step_finish ht hr hx h]
    simp
  · rw [step_turn ht] at h
    have hstep : step { s with op := w } = engineStep { s.advance with op := w } := step_turn ht
    exact hstep.trans (engineStep_withOp h w)

/-- Settles O16: of the three turns only the finish writes an output or `DONE`, and it changes the phase. -/
theorem engineFrame : Obligations.EngineFrame := by
  intro s t ht h
  rw [step_turn ht] at h
  refine ⟨engineStep_sameInputs h, ?_⟩
  rcases engineStep_cases h with ⟨-, rfl⟩ | ⟨-, -, -, rfl⟩ | ⟨hr, -, -, rfl⟩
  · exact ⟨rfl, rfl, fun _ => ⟨SameOutputs.refl s, rfl⟩⟩
  · exact ⟨rfl, rfl, fun _ => ⟨SameOutputs.refl s, rfl⟩⟩
  · exact ⟨rfl, rfl, fun hsame => nomatch hsame.trans hr⟩

end Sys2Proof.Machine
end

section
/-! What `SameInputs` and `Finished` say, for the iterations and the finish of an operation. -/

namespace Sys2Proof

open Machine

theorem SameInputs.trans {s t u : State} (h : SameInputs s t) (h' : SameInputs t u) : SameInputs s u := by
  obtain ⟨hreg, hibuf, hilen, hkb, hp, hq⟩ := h
  obtain ⟨hreg', hibuf', hilen', hkb', hp', hq'⟩ := h'
  exact ⟨fun k hk => (hreg' k hk).trans (hreg k hk), fun a => (hibuf' a).trans (hibuf a), hilen'.trans hilen,
    hkb'.trans hkb, hp'.trans hp, hq'.trans hq⟩

theorem SameInputs.alone {s t : State} (h : SameInputs s t) : SameInputs s.alone t.alone := by
  obtain ⟨hreg, hibuf, hilen, hkb, -, -⟩ := h
  exact ⟨hreg, hibuf, hilen, hkb, rfl, rfl⟩

theorem SameInputs.kbytes {s t : State} (h : SameInputs s t) : t.kbytes = s.kbytes := h.2.2.2.1

theorem iter_sameInputs (s : State) (n : Nat) : SameInputs s (iter s n) := by
  obtain ⟨-, -, -, -, -, -, hkb, hp, hq, hibuf, hilen, hreg⟩ := iter_fields s n
  exact ⟨fun k _ => hreg k, fun a => by rw [hibuf], hilen, hkb, hp, hq⟩

theorem finish_sameInputs (s : State) (v : Nat) : SameInputs s (s.deliver v).endRun := by
  simp +contextual [SameInputs]

theorem Finished.of_iter {s u : State} {v n : Nat} (h : Finished v (iter s n) u) : Finished v s u := by
  obtain ⟨-, -, -, -, herr, hop, -⟩ := iter_fields s n
  rwa [Finished, herr, hop] at h

theorem Finished.reg_res {s u : State} {v : Nat} (h : Finished v s u) : u.reg IR.RES = v := h.1

theorem Finished.olen {s u : State} {v : Nat} (h : Finished v s u) : u.olen = bytelen v := h.2.1

theorem Finished.flags {s u : State} {v : Nat} (h : Finished v s u) :
    u.phase = .idle ∧ u.done = true ∧ u.errcode = s.errcode ∧ u.op = s.op := by
  obtain ⟨-, -, -, -, hdone, hidle, -, -, -, -, herr, hop⟩ := h
  exact ⟨hidle, hdone, herr, hop⟩

theorem Finished.status {s u : State} {v : Nat} (h : Finished v s u) (he : s.errcode = 0#4) :
    u.status = 0x00000002#32 := by
  obtain ⟨hidle, hdone, herr, -⟩ := h.flags
  exact status_of_fields hidle hdone (herr.trans he)

end Sys2Proof
end

section
/-! An accepted operation with the engine left to itself (`40_modpow_engine.md` R77 to R79, R83 to R88). -/

namespace Sys2Proof.Machine

/-- A command whose checks pass is accepted, with a modulus of at least 1 (`40_modpow_engine.md` R79). -/
theorem accepted_of_exec {i : Instr} {s t : State} {b e m : Nat} (hi : s.phase = .idle)
    (hargs : commandArgs i s = .ok (b, e, m)) (hx : exec i s = .next t) : Accepted (encode i) b e m s t ∧ 1 ≤ m := by
  obtain ⟨hm, hx'⟩ := exec_ok hi hargs
  rw [hx'] at hx; cases hx
  exact ⟨accepted_setup s (encode i) b e m, hm⟩

/-- The setup reduces the base and the accumulator modulo `m` (`40_modpow_engine.md` R79). -/
theorem working_lt_of_accepted {w : Word32} {b e m : Nat} {s t : State} (h : Accepted w b e m s t) (hm : 1 ≤ m) :
    t.wb < t.wm ∧ t.wr < t.wm := by
  obtain ⟨-, -, -, -, rfl, -, hwb, hwr, -⟩ := h
  exact ⟨hwb ▸ Nat.mod_lt _ hm, hwr ▸ Nat.mod_lt _ hm⟩

theorem commandArgs_modpow {s : State} (h : s.reg IR.OPM ≠ 0) :
    commandArgs .modpow s = .ok (s.reg IR.OPB, s.reg IR.OPE, s.reg IR.OPM) := if_neg h

theorem commandArgs_modpow_zero {s : State} (h : s.reg IR.OPM = 0) :
    commandArgs .modpow s = .error .invalidParameters := if_pos h

/-- Settles O8: the two outcomes of the acceptance; the operands loaded are reduced modulo `OPM`. -/
theorem modpowAcceptance : Obligations.ModpowAcceptance := by
  refine fun s hi => ⟨fun hm => ?_, fun hm => ?_⟩
  · obtain ⟨t, hx⟩ := exec_next .modpow s
    obtain ⟨hacc, hpos⟩ := accepted_of_exec hi (commandArgs_modpow hm) hx
    obtain ⟨hwb, hwr⟩ := working_lt_of_accepted hacc hpos
    exact ⟨t, hx, hacc, hwb, hwr, status_of_accepted hacc⟩
  · have herr := errorCompletion_raise hi (encode .modpow) .invalidParameters
    exact ⟨_, exec_error hi (commandArgs_modpow_zero hm), herr, rfl, status_of_error herr⟩

theorem loopInvariant_of_accepted {w : Word32} {b e m : Nat} {s t : State} (h : Accepted w b e m s t) :
    loopInvariant b e m t := by
  obtain ⟨-, -, -, -, hwm, hwx, hwb, hwr, -⟩ := h
  exact ⟨hwm, by rw [hwx, hwb, hwr]; exact setup_residue b e m⟩

/-- The iterations of an accepted operation, one a step; each leaves it in RUN, halving `WX`. -/
theorem runs_iter_of_accepted {w : Word32} {b e m : Nat} {s t : State} (h : Accepted w b e m s t) (hm : 1 ≤ m)
    {n : Nat} (hn : n ≤ bitlen e) :
    runs n t.alone (iter t.alone n) ∧ (iter t.alone n).phase = .run ∧ (iter t.alone n).done = false ∧
      (iter t.alone n).wx = e / 2 ^ n := by
  obtain ⟨-, hdone, -, hrun, hwm, hwx, -⟩ := h
  obtain ⟨hphase', -, hwx', hdone', -⟩ := iter_fields t.alone n
  exact ⟨runs_iter (s := t.alone) hrun (hwm ▸ hm) rfl rfl n (hwx ▸ hn), hphase'.trans hrun, hdone'.trans hdone,
    hwx'.trans (congrArg (· / 2 ^ n) hwx)⟩

/-- After its iterations and one finish step an accepted operation has delivered `modPow b e m`
(`40_modpow_engine.md` R84). -/
theorem runs_finished_of_accepted {w : Word32} {b e m : Nat} {s t : State} (h : Accepted w b e m s t) (hm : 1 ≤ m)
    (hw : m ≤ 2 ^ s.width) :
    ∃ u, runs (bitlen e + 1) t.alone u ∧ Finished (modPow b e m) t u ∧ SameInputs s.alone u ∧
      u.status = 0x00000002#32 ∧ u.output = i2ospMin (modPow b e m) := by
  have hvalue : modPow b e m = t.alone.wr * t.alone.wb ^ t.alone.wx % t.alone.wm := by
    obtain ⟨hwm, hresidue⟩ := loopInvariant_of_accepted h
    rw [modPow, ← hresidue, ← hwm]; rfl
  obtain ⟨-, hwr⟩ := working_lt_of_accepted h hm
  obtain ⟨-, -, herr, hrun, rfl, rfl, -, -, hin, -⟩ := h
  have hwidth : t.alone.width = s.width := congrArg width hin.kbytes
  have hruns := runs_finish (s := t.alone) hrun hm rfl rfl hwr (hwidth ▸ hw)
  rw [← hvalue] at hruns
  have hfin : Finished (modPow b t.wx t.wm) t _ :=
    Finished.of_iter (s := t.alone) (finished_finish (iter t.alone (bitlen t.wx)) _)
  exact ⟨_, hruns, hfin, (hin.alone.trans (iter_sameInputs t.alone _)).trans (finish_sameInputs _ _),
    hfin.status herr, State.deliver_output (iter t.alone (bitlen t.wx)) _⟩

/-- Settles O17: the setup establishes the invariant and each iteration keeps it. -/
theorem Engine.loopInvariant : Obligations.LoopInvariant := by
  intro i s t b e m n hi hargs hx hn
  obtain ⟨hacc, hm⟩ := accepted_of_exec hi hargs hx
  obtain ⟨hruns, hrun, -⟩ := runs_iter_of_accepted hacc hm hn
  have hsetup := loopInvariant_of_accepted hacc
  exact ⟨_, hruns, hrun, loopInvariant_iter (s := t.alone) hsetup n⟩

/-- Settles O24, by the runs of the iterations and of the finish of an accepted operation. -/
theorem operationStepCountAndResult : Obligations.OperationStepCountAndResult := by
  intro i s b e m hi hargs hw
  obtain ⟨t, hx⟩ := exec_next i s
  obtain ⟨hacc, hm⟩ := accepted_of_exec hi hargs hx
  refine ⟨t, hx, fun n hn => ⟨_, runs_iter_of_accepted hacc hm hn⟩, ?_⟩
  obtain ⟨u, hruns, hfin, -⟩ := runs_finished_of_accepted hacc hm (Nat.le_of_lt hw)
  obtain ⟨-, -, herr, -⟩ := hacc
  obtain ⟨hidle, hdone, herr', -⟩ := hfin.flags
  exact ⟨u, hruns, hidle, hdone, herr'.trans herr, hfin.reg_res⟩

/-- Settles O21, by the run of an accepted operation, or by the error's completion. -/
theorem modpowComputesModPow : Obligations.ModpowComputesModPow := by
  refine fun s hi hw => ⟨fun hm => ?_, fun hm => ?_⟩
  · obtain ⟨t, hx⟩ := exec_next .modpow s
    obtain ⟨hacc, hpos⟩ := accepted_of_exec hi (commandArgs_modpow hm) hx
    obtain ⟨u, hruns, hfin, hin, hstatus, hout⟩ := runs_finished_of_accepted hacc hpos (Nat.le_of_lt hw)
    exact ⟨t, u, hx, hacc, hruns, hfin, hin, hstatus, by rw [hout, hfin.reg_res]⟩
  · exact ⟨_, exec_error hi (commandArgs_modpow_zero hm), errorCompletion_raise hi _ _⟩

theorem iter_wb_lt (s : State) (n : Nat) (h : s.wb < s.wm) : (iter s n).wb < s.wm := by
  cases n with
  | zero => exact h
  | succ n =>
    have hwm : (iter s n).wm = s.wm := (iter_fields s n).2.1
    rw [iter, State.iterate_wb, hwm]
    exact Nat.mod_lt _ (Nat.zero_lt_of_lt h)

/-- Settles O19: `WB` and `WR` stay below the modulus 1, and every remainder by 1 is 0. -/
theorem modulusOneGivesZero : Obligations.ModulusOneGivesZero := by
  intro s t hi hone hx
  obtain ⟨hacc, hm⟩ := accepted_of_exec hi (commandArgs_modpow (s := s) (by omega)) hx
  rw [hone] at hacc hm
  refine ⟨fun n hn => ?_, ?_⟩
  · obtain ⟨hruns, hrun, -⟩ := runs_iter_of_accepted hacc hm hn
    obtain ⟨hwb, hwr⟩ := working_lt_of_accepted hacc hm
    obtain ⟨-, -, -, -, hwm, -⟩ := hacc
    have hwb' := iter_wb_lt t.alone n hwb
    have hwr' := iter_wr_lt t.alone n hwr
    rw [State.alone_wm, hwm, Nat.lt_one_iff] at hwb' hwr'
    exact ⟨_, hruns, hrun, hwb', hwr'⟩
  · obtain ⟨u, hruns, hfin, -, hstatus, -⟩ := runs_finished_of_accepted hacc hm Nat.one_le_two_pow
    have hzero : modPow (s.reg IR.OPB) (s.reg IR.OPE) 1 = 0 := Nat.mod_one _
    rw [hzero] at hfin
    exact ⟨u, hruns, hfin.flags.1, hfin.reg_res, hfin.olen, hstatus⟩

/-- Settles O20: exponent 0 has no bits, so the run is the finish alone, and the 0th power is 1. -/
theorem exponentZeroFinishesAtOnce : Obligations.ExponentZeroFinishesAtOnce := by
  intro s t hinv hi hzero hne hx
  obtain ⟨hacc, hm⟩ := accepted_of_exec hi (commandArgs_modpow hne) hx
  obtain ⟨u, hruns, hfin, -, hstatus, hout⟩ := runs_finished_of_accepted hacc hm (Nat.le_of_lt (hinv.reg_lt IR.OPM))
  have hval : modPow (s.reg IR.OPB) (s.reg IR.OPE) (s.reg IR.OPM) = 1 % s.reg IR.OPM := by
    rw [hzero, modPow, pow_zero]
  rw [hval] at hfin hout
  rw [hzero] at hruns
  refine ⟨u, hruns, hfin.flags.1, hstatus, fun hlt => ?_, fun hone => ?_⟩
  · rw [Nat.mod_eq_of_lt hlt] at hfin hout
    exact ⟨hfin.reg_res, hout⟩
  · rw [hone] at hfin hout
    exact ⟨hfin.reg_res, hout⟩

/-- With nothing pending, a run of at least one step is the run of the engine alone: no step reads `reply`. -/
theorem runs_of_alone {s u : State} {n : Nat} (hp : s.pending = []) (h : runs (n + 1) s.alone u) :
    runs (n + 1) s u := by
  have halone : s.alone = { s with reply := none } := by rw [State.alone, ← hp]
  exact (runs_reply (by omega)).2 (halone ▸ h)

/-- Settles O18, by `runs_iter` and `runs_finish`; the run of no step is the state itself. -/
theorem stepsToIdle : Obligations.StepsToIdle := by
  intro s hinv hr hp
  obtain ⟨hm, -, hwr, hdone, -⟩ := hinv.run_ok hr
  obtain ⟨-, -, hwm, -⟩ := hinv.working_lt
  refine ⟨fun n hn => ?_, ?_⟩
  · cases n with
    | zero => exact ⟨s, (runs_zero s s).2 rfl, hr, hdone, (Nat.div_one _).symm⟩
    | succ n =>
      obtain ⟨hphase', -, hwx', hdone', -⟩ := iter_fields s.alone (n + 1)
      exact ⟨_, runs_of_alone hp (runs_iter (s := s.alone) hr hm rfl rfl (n + 1) hn), hphase'.trans hr,
        hdone'.trans hdone, hwx'⟩
  · exact ⟨_, runs_of_alone hp (runs_finish (s := s.alone) hr hm rfl rfl hwr (Nat.le_of_lt hwm)), rfl, rfl⟩

end Sys2Proof.Machine
end

section
/-! An operation while the host does what it likes (`40_modpow_engine.md` R84, R90, `43_host_interface.md` R115). -/

namespace Sys2Proof.Machine

/-- The operation of the word `w` whose setup received `(b, e, m)` is running: the loop invariant
(`40_modpow_engine.md` R83), and what its result needs besides. -/
structure Operating (w : Word32) (b e m : Nat) (s : State) : Prop where
  run : s.phase = .run
  op : s.op = w
  errcode : s.errcode = 0#4
  loop : loopInvariant b e m s
  wr_lt : s.wr < m
  fits : m ≤ 2 ^ s.width

theorem operating_of_accepted {w : Word32} {b e m : Nat} {s t : State} (h : Accepted w b e m s t) (hm : 1 ≤ m)
    (hw : m ≤ 2 ^ s.width) : Operating w b e m t := by
  have hloop := loopInvariant_of_accepted h
  obtain ⟨-, hwr⟩ := working_lt_of_accepted h hm
  obtain ⟨hop, -, herr, hrun, rfl, -, -, -, hin, -⟩ := h
  have hwidth : t.width = s.width := congrArg width hin.kbytes
  exact ⟨hrun, hop, herr, hloop, hwr, hwidth ▸ hw⟩

/-- The engine's side of the block is the same: all that the engine's turns read, `OP` and `ERRCODE`. -/
structure SameEngine (s t : State) : Prop where
  wb : t.wb = s.wb
  wx : t.wx = s.wx
  wm : t.wm = s.wm
  wr : t.wr = s.wr
  op : t.op = s.op
  phase : t.phase = s.phase
  errcode : t.errcode = s.errcode
  kbytes : t.kbytes = s.kbytes

theorem Operating.of_sameEngine {w : Word32} {b e m : Nat} {s t : State} (h : Operating w b e m s)
    (hsame : SameEngine s t) : Operating w b e m t where
  run := hsame.phase.trans h.run
  op := hsame.op.trans h.op
  errcode := hsame.errcode.trans h.errcode
  loop := by
    obtain ⟨hwm, hresidue⟩ := h.loop
    exact ⟨hsame.wm.trans hwm, by rw [hsame.wr, hsame.wb, hsame.wx]; exact hresidue⟩
  wr_lt := hsame.wr ▸ h.wr_lt
  fits := by
    have hwidth : t.width = s.width := congrArg width hsame.kbytes
    rw [hwidth]; exact h.fits

theorem Operating.iterate {w : Word32} {b e m : Nat} {s : State} (h : Operating w b e m s) :
    Operating w b e m s.iterate where
  run := h.run
  op := h.op
  errcode := h.errcode
  loop := loopInvariant_iterate h.loop
  wr_lt := by
    obtain ⟨rfl, -⟩ := h.loop
    exact iter_wr_lt s 1 h.wr_lt
  fits := h.fits

/-- With `WX = 0` the accumulator is the result. -/
theorem Operating.wr_eq_modPow {w : Word32} {b e m : Nat} {s : State} (h : Operating w b e m s) (hx : s.wx = 0) :
    s.wr = modPow b e m := by
  obtain ⟨-, hresidue⟩ := h.loop
  rw [hx, pow_zero, Nat.mul_one, Nat.mod_eq_of_lt h.wr_lt] at hresidue
  exact hresidue

theorem sameEngine_advance (s : State) : SameEngine s s.advance := ⟨rfl, rfl, rfl, rfl, rfl, rfl, rfl, rfl⟩

theorem sameEngine_access (x : HostTxn) (s : State) : SameEngine s (hostAccess x s.advance) := by
  obtain ⟨hwb, hwx, hwm, hwr, hop, hphase, -, herr, -, -, -, hkb, -⟩ := hostAccess_frame x s.advance
  exact ⟨hwb, hwx, hwm, hwr, hop, hphase, herr, hkb⟩

/-- No transaction of the host touches the engine's side while an operation runs (`43_host_interface.md` R114, R115). -/
theorem step_host_of_run {s : State} {x : HostTxn} {rest : List Event} (hr : s.phase = .run)
    (hp : s.pending = .host x :: rest) (he : x.expressible s.kbytes = true) :
    ∃ t, step s = .next t ∧ SameEngine s t := by
  by_cases hx : isAccess x
  · exact ⟨_, step_access hp hx he, sameEngine_access x s⟩
  · obtain ⟨w, rfl⟩ : ∃ w, x = .wrCtl CTL.CMD w := by simpa [isAccess] using hx
    exact ⟨_, step_commandEvent_run hp hr, sameEngine_advance s⟩

/-- The engine's turn in an operation with `WX > 0` is an iteration. -/
theorem Operating.step_iterate {w : Word32} {b e m : Nat} {s : State} {rest : List Event} (h : Operating w b e m s)
    (hp : s.pending = .engine :: rest) (hx : 0 < s.wx) : step s = .next s.advance.iterate := by
  obtain ⟨rfl, -⟩ := h.loop
  exact (step_engine hp).trans (engineStep_iterate h.run hx (Nat.zero_lt_of_lt h.wr_lt))

/-- The engine's turn in an operation with `WX = 0` delivers its result. -/
theorem Operating.step_finish {w : Word32} {b e m : Nat} {s : State} {rest : List Event} (h : Operating w b e m s)
    (hp : s.pending = .engine :: rest) (hx : s.wx = 0) :
    step s = .next (s.advance.deliver (modPow b e m)).endRun := by
  have hfit : bytelen s.wr ≤ s.kbytes := bytelen_le_of_lt_width (Nat.lt_of_lt_of_le h.wr_lt h.fits)
  rw [step_engine hp, engineStep_finish (s := s.advance) h.run hx hfit, State.advance_wr, h.wr_eq_modPow hx]

/-- Events without reset keep an operation running until the engine has had as many turns as `WX` has bits; of these
events only the engine's turns count. -/
theorem Operating.runs_events {w : Word32} {b e m : Nat} {s : State} {es rest : List Event}
    (h : Operating w b e m s) (hp : s.pending = es ++ rest) (hreset : Event.reset ∉ es)
    (hwf : ∀ x ∈ es, x.wellFormed s.kbytes = true) (hcount : es.count .engine = bitlen s.wx) :
    ∃ t, runs es.length s t ∧ Operating w b e m t ∧ t.wx = 0 ∧ t.pending = rest := by
  induction es generalizing s with
  | nil => exact ⟨s, (runs_zero s s).2 rfl, h, (bitlen_eq_zero _).1 hcount.symm, hp⟩
  | cons x es ih =>
    obtain ⟨hne, hreset⟩ := not_or.1 (List.mem_cons.not.1 hreset)
    obtain ⟨hwfx, hwf⟩ := List.forall_mem_cons.1 hwf
    have hnext : ∃ t, step s = .next t ∧ Operating w b e m t ∧ es.count .engine = bitlen t.wx := by
      cases x with
      | reset => exact absurd rfl hne
      | engine =>
        rw [List.count_cons_self] at hcount
        have hx : 0 < s.wx := Nat.pos_of_ne_zero fun hzero => by simp [hzero] at hcount
        have hhalf := bitlen_shiftRight_one hx
        exact ⟨_, h.step_iterate hp hx, (h.of_sameEngine (sameEngine_advance s)).iterate,
          by simp only [State.iterate_wx, State.advance_wx]; omega⟩
      | host x =>
        obtain ⟨t, hstep, hsame⟩ := step_host_of_run h.run hp hwfx
        exact ⟨t, hstep, h.of_sameEngine hsame, by rw [hsame.wx, ← hcount, List.count_cons_of_ne (by simp)]⟩
    obtain ⟨t, hstep, hop, hcount'⟩ := hnext
    obtain ⟨hkb, hp'⟩ := step_kbytes_pending hstep
    obtain ⟨u, hruns, hu⟩ := ih hop (by rw [hp', hp]; rfl) hreset (hkb ▸ hwf) hcount'
    exact ⟨u, (runs_succ hstep).2 hruns, hu⟩

/-- No command reads what is pending. -/
theorem commandArgs_advance (i : Instr) (s : State) : commandArgs i s.advance = commandArgs i s := rfl

/-- Settles O25: the acceptance starts the operation, the events before the last engine slot keep it running down to
`WX = 0`, and that slot is its finish. -/
theorem resultInEveryInterleaving : Obligations.ResultInEveryInterleaving := by
  intro s i b e m es rest hi hargs hw hp hreset hwf hcount
  obtain ⟨t, hx⟩ := exec_next i s.advance
  obtain ⟨hacc, hm⟩ := accepted_of_exec (s := s.advance) hi ((commandArgs_advance i s).trans hargs) hx
  have hstart : step s = .next t := (step_command hp (decode_encode i)).trans hx
  have hop := operating_of_accepted hacc hm (Nat.le_of_lt hw)
  obtain ⟨hkb, hp'⟩ := step_kbytes_pending hstart
  obtain ⟨-, -, -, -, -, hwx, -⟩ := hacc
  rw [hp, List.tail_cons] at hp'
  obtain ⟨u, hruns, hop', hzero, hpu⟩ := hop.runs_events hp' hreset (hkb ▸ hwf) (hwx ▸ hcount)
  have hfinish := hop'.step_finish hpu hzero
  have hfin := finished_finish u.advance (modPow b e m)
  obtain ⟨-, -, -, hopw⟩ := hfin.flags
  have hrun : runs (es.length + 2) s _ := (runs_succ hstart).2 (runs_add hruns (runs_one hfinish))
  exact ⟨_, hrun, hfin.reg_res, State.deliver_output u.advance _, hfin.olen, hfin.status hop'.errcode,
    hopw.trans hop'.op, congrArg List.tail hpu⟩

end Sys2Proof.Machine
end

section
/-! ENCRYPT (`41_encrypt.md` R93 to R96): its two outcomes, its result, and the leading zero bytes of its message. -/

namespace Sys2Proof.Machine

theorem commandArgs_encrypt {s : State} (h : s.inputValue < s.reg IR.N) :
    commandArgs .encrypt s = .ok (s.inputValue, s.reg IR.E, s.reg IR.N) := if_neg (Nat.not_le.2 h)

theorem commandArgs_encrypt_tooLong {s : State} (h : s.reg IR.N ≤ s.inputValue) :
    commandArgs .encrypt s = .error .messageTooLong := if_pos h

theorem encryptFn_eq_ok_iff {n e : Nat} {bs c : List Byte} :
    encryptFn n e bs = .ok c ↔ os2ip bs < n ∧ i2ospMin (modPow (os2ip bs) e n) = c := by
  rw [encryptFn]
  split <;> simp [*]

theorem encryptFn_eq_error_iff {n e : Nat} {bs : List Byte} {x : Err} :
    encryptFn n e bs = .error x ↔ n ≤ os2ip bs ∧ x = .messageTooLong := by
  rw [encryptFn]
  split
  · next h => simp [h]
  · next h => simp [Nat.not_lt.1 h, eq_comm]

/-- A base below the modulus is loaded as it is (`40_modpow_engine.md` R79). -/
theorem wb_eq_of_accepted {w : Word32} {b e m : Nat} {s t : State} (h : Accepted w b e m s t) (hb : b < m) :
    t.wb = b := by
  obtain ⟨-, -, -, -, -, -, hwb, -⟩ := h
  exact hwb.trans (Nat.mod_eq_of_lt hb)

/-- Settles O9: the two outcomes of the acceptance; a message below `N` is its own residue. -/
theorem encryptAcceptance : Obligations.EncryptAcceptance := by
  refine fun s hi => ⟨fun hlt => ?_, fun hle => ?_⟩
  · obtain ⟨t, hx⟩ := exec_next .encrypt s
    obtain ⟨hacc, hpos⟩ := accepted_of_exec hi (commandArgs_encrypt hlt) hx
    obtain ⟨-, hwr⟩ := working_lt_of_accepted hacc hpos
    exact ⟨t, hx, hacc, wb_eq_of_accepted hacc hlt, hwr, status_of_accepted hacc⟩
  · have herr := errorCompletion_raise hi (encode .encrypt) .messageTooLong
    exact ⟨_, exec_error hi (commandArgs_encrypt_tooLong hle), herr, rfl, status_of_error herr⟩

/-- Settles O22: where `encrypt` gives a ciphertext the run of the accepted operation delivers it, and where it gives
`MessageTooLong` the acceptance completes with that error. -/
theorem encryptComputesEncrypt : Obligations.EncryptComputesEncrypt := by
  refine fun s hi hw => ⟨fun c hc => ?_, fun x hx => ?_⟩
  · obtain ⟨hlt, rfl⟩ := encryptFn_eq_ok_iff.1 hc
    obtain ⟨t, hx⟩ := exec_next .encrypt s
    obtain ⟨hacc, hpos⟩ := accepted_of_exec hi (commandArgs_encrypt hlt) hx
    obtain ⟨u, hruns, hfin, hin, hstatus, hout⟩ := runs_finished_of_accepted hacc hpos (Nat.le_of_lt hw)
    exact ⟨t, u, hx, hacc, wb_eq_of_accepted hacc hlt, hruns, hfin, hout, hin, hstatus⟩
  · obtain ⟨hle, rfl⟩ := encryptFn_eq_error_iff.1 hx
    exact ⟨rfl, _, exec_error hi (commandArgs_encrypt_tooLong hle), errorCompletion_raise hi _ _⟩

/-- Two idle states that give a command the same arguments, or the same error, answer it alike: the outcome and what
the engine is loaded with depend on nothing else. -/
theorem exec_alike_of_commandArgs_eq {i : Instr} {s s' : State} (hi : s.phase = .idle) (hi' : s'.phase = .idle)
    (hargs : commandArgs i s' = commandArgs i s) :
    ∃ t t', exec i s = .next t ∧ exec i s' = .next t' ∧ t'.phase = t.phase ∧ t'.errcode = t.errcode ∧
      (t.phase = .run → t'.wb = t.wb ∧ t'.wx = t.wx ∧ t'.wm = t.wm ∧ t'.wr = t.wr) := by
  rcases exec_idle hi i with ⟨b, e, m, hok, -, hx⟩ | ⟨x, herr, hx⟩
  · obtain ⟨-, hx'⟩ := exec_ok hi' (hargs.trans hok)
    exact ⟨_, _, hx, hx', rfl, rfl, fun _ => ⟨rfl, rfl, rfl, rfl⟩⟩
  · have hx' := exec_error hi' (hargs.trans herr)
    exact ⟨_, _, hx, hx', hi'.trans hi.symm, rfl, fun hr => nomatch hi.symm.trans hr⟩

/-- Settles O53: leading zero bytes leave the message integer as it is, and ENCRYPT reads nothing else of the input. -/
theorem leadingZerosEncryptAlike : Obligations.LeadingZerosEncryptAlike := by
  intro s s' n hi hi' hN hE hinput
  have hvalue : s'.inputValue = s.inputValue := (congrArg os2ip hinput).trans (os2ip_replicate_zero n s.input)
  exact exec_alike_of_commandArgs_eq hi hi' (by simp only [commandArgs, hvalue, hN, hE])

end Sys2Proof.Machine
end

section
/-! DECRYPT (`42_decrypt.md` R98 to R103): its two outcomes, its result, the reduction of its ciphertext, and the round
trip with ENCRYPT. -/

namespace Sys2Proof.Machine

theorem commandArgs_decrypt {s : State} (hpos : 1 ≤ s.reg IR.P * s.reg IR.Q)
    (hw : s.reg IR.P * s.reg IR.Q < 2 ^ s.width) :
    commandArgs .decrypt s = .ok (s.inputValue, s.reg IR.D, s.reg IR.P * s.reg IR.Q) := if_pos ⟨hpos, hw⟩

theorem commandArgs_decrypt_invalid {s : State}
    (h : s.reg IR.P * s.reg IR.Q = 0 ∨ 2 ^ s.width ≤ s.reg IR.P * s.reg IR.Q) :
    commandArgs .decrypt s = .error .invalidParameters := if_neg (by omega)

/-- Settles O10: the two outcomes of the acceptance; the ciphertext loaded is reduced modulo `P*Q`. -/
theorem decryptAcceptance : Obligations.DecryptAcceptance := by
  refine fun s hi => ⟨fun hne hw => ?_, fun hbad => ?_⟩
  · obtain ⟨t, hx⟩ := exec_next .decrypt s
    obtain ⟨hacc, hpos⟩ := accepted_of_exec hi (commandArgs_decrypt (Nat.pos_of_ne_zero hne) hw) hx
    obtain ⟨hwb, hwr⟩ := working_lt_of_accepted hacc hpos
    exact ⟨t, hx, hacc, hwb, hwr, status_of_accepted hacc⟩
  · have herr := errorCompletion_raise hi (encode .decrypt) .invalidParameters
    exact ⟨_, exec_error hi (commandArgs_decrypt_invalid hbad), herr, rfl, status_of_error herr⟩

/-- Settles O23: the accepted operation delivers `modPow` of the ciphertext integer, which `decrypt` encodes. -/
theorem decryptComputesDecrypt : Obligations.DecryptComputesDecrypt := by
  refine fun s hi => ⟨fun hpos hw => ?_, fun hbad => ?_⟩
  · obtain ⟨t, hx⟩ := exec_next .decrypt s
    obtain ⟨hacc, -⟩ := accepted_of_exec hi (commandArgs_decrypt hpos hw) hx
    obtain ⟨u, hruns, hfin, hin, hstatus, hout⟩ := runs_finished_of_accepted hacc hpos (Nat.le_of_lt hw)
    exact ⟨t, u, hx, hacc, hruns, hfin, hout, hin, hstatus⟩
  · exact ⟨_, exec_error hi (commandArgs_decrypt_invalid hbad), errorCompletion_raise hi _ _⟩

/-- Bases that differ by a multiple of the modulus have the same powers (`42_decrypt.md` R101). -/
theorem modPow_add_mul_modulus (c k e m : Nat) : modPow (c + k * m) e m = modPow c e m := by
  rw [modPow, Nat.pow_mod, Nat.add_mul_mod_self_right, ← Nat.pow_mod, modPow]

/-- Two accepted operations with one exponent and one modulus whose powers agree deliver the same result. -/
theorem runs_alike_of_accepted {w w' : Word32} {b b' e m : Nat} {s s' t t' : State} (h : Accepted w b e m s t)
    (h' : Accepted w' b' e m s' t') (hm : 1 ≤ m) (hw : m ≤ 2 ^ s.width) (hw' : m ≤ 2 ^ s'.width)
    (hpow : modPow b' e m = modPow b e m) :
    ∃ u u', runs (bitlen e + 1) t.alone u ∧ runs (bitlen e + 1) t'.alone u' ∧ u'.reg IR.RES = u.reg IR.RES ∧
      u'.output = u.output ∧ u.status = 0x00000002#32 ∧ u'.status = 0x00000002#32 := by
  obtain ⟨u, hruns, hfin, -, hstatus, hout⟩ := runs_finished_of_accepted h hm hw
  obtain ⟨u', hruns', hfin', -, hstatus', hout'⟩ := runs_finished_of_accepted h' hm hw'
  rw [hpow] at hfin' hout'
  exact ⟨u, u', hruns, hruns', hfin'.reg_res.trans hfin.reg_res.symm, hout'.trans hout.symm, hstatus, hstatus'⟩

/-- Settles O54: the check reads only `P`, `Q` and the capacity, so it passes or fails for both ciphertexts; where it
passes, their powers modulo `P*Q` are equal. -/
theorem decryptReducesCiphertext : Obligations.DecryptReducesCiphertext := by
  intro s s' k hi hi' hP hQ hD hkb hc
  have hwidth : s'.width = s.width := congrArg width hkb
  by_cases hbad : s.reg IR.P * s.reg IR.Q = 0 ∨ 2 ^ s.width ≤ s.reg IR.P * s.reg IR.Q
  · have hx := exec_error hi (commandArgs_decrypt_invalid hbad)
    have hx' := exec_error hi' (commandArgs_decrypt_invalid (by rwa [hP, hQ, hwidth]))
    exact ⟨_, _, hx, hx', (by decide : Err.invalidParameters.code ≠ Err.messageTooLong.code), rfl, hi'.trans hi.symm,
      fun hr => nomatch hi.symm.trans hr⟩
  · obtain ⟨hne, hw⟩ := not_or.1 hbad
    have hpos : 1 ≤ s.reg IR.P * s.reg IR.Q := Nat.pos_of_ne_zero hne
    have hw : s.reg IR.P * s.reg IR.Q < 2 ^ s.width := Nat.not_le.1 hw
    have hargs' := commandArgs_decrypt (s := s') (by rwa [hP, hQ]) (by rwa [hP, hQ, hwidth])
    rw [hP, hQ, hD, hc] at hargs'
    obtain ⟨t, hx⟩ := exec_next .decrypt s
    obtain ⟨t', hx'⟩ := exec_next .decrypt s'
    obtain ⟨hacc, -⟩ := accepted_of_exec hi (commandArgs_decrypt hpos hw) hx
    obtain ⟨hacc', -⟩ := accepted_of_exec hi' hargs' hx'
    have hdelivered := runs_alike_of_accepted hacc hacc' hpos (Nat.le_of_lt hw) (hwidth ▸ Nat.le_of_lt hw)
      (modPow_add_mul_modulus _ _ _ _)
    obtain ⟨-, -, herr, hrun, -, -, hwb, -⟩ := hacc
    obtain ⟨-, -, herr', hrun', -⟩ := hacc'
    exact ⟨t, t', hx, hx', herr ▸ Err.messageTooLong.code_ne_zero.symm, herr'.trans herr.symm,
      hrun'.trans hrun.symm, fun _ => ⟨hwb, hdelivered⟩⟩

/-- A command as the last thing pending, from its write to `CMD` to its delivered result: one step of acceptance, and
then the engine is left to itself. -/
theorem runs_command_finished {i : Instr} {s : State} {b e m : Nat} (hi : s.phase = .idle)
    (hargs : commandArgs i s = .ok (b, e, m)) (hw : m ≤ 2 ^ s.width) (hp : s.pending = [commandEvent (encode i)]) :
    ∃ t, runs (bitlen e + 2) s t ∧ SameInputs s.alone t ∧ t.phase = .idle ∧ t.reg IR.RES = modPow b e m ∧
      t.output = i2ospMin (modPow b e m) ∧ t.status = 0x00000002#32 := by
  obtain ⟨t, hx⟩ := exec_next i s.advance
  obtain ⟨hacc, hm⟩ := accepted_of_exec (s := s.advance) hi ((commandArgs_advance i s).trans hargs) hx
  have hstart : step s = .next t := (step_command hp (decode_encode i)).trans hx
  obtain ⟨-, hpt⟩ := step_kbytes_pending hstart
  rw [hp, List.tail_cons] at hpt
  obtain ⟨u, hruns, hfin, hin, hstatus, hout⟩ := runs_finished_of_accepted hacc hm hw
  exact ⟨u, (runs_succ hstart).2 (runs_of_alone hpt hruns), hin, hfin.flags.1, hfin.reg_res, hout, hstatus⟩

/-- What a command reads after a `LOAD`: the loaded integer, and the phase, the capacity and the registers as they
were (`30_encoding.md` R71). -/
theorem runs_load {s : State} {bs : List Byte} {rest : List Event} (h : Inv s) (hfit : bs.length ≤ s.kbytes)
    (hp : s.pending = scriptEvents [.load bs] ++ rest) :
    ∃ t, runs (bs.length + 1) s t ∧ t.inputValue = os2ip bs ∧ t.pending = rest ∧ t.phase = s.phase ∧
      t.kbytes = s.kbytes ∧ ∀ k, t.reg k = s.reg k := by
  obtain ⟨t, hruns, -, -, hvalue, ht, -⟩ := loadSetsInput s bs rest h.ibuf_ok.1 hfit h.kbytes_range.2 hp
  exact ⟨t, hruns, hvalue, by rw [ht], by rw [ht], by rw [ht], fun k => by rw [ht]; rfl⟩

/-- Settles O26: ENCRYPT leaves `modPow` of the message as output, the `LOAD` makes it the ciphertext integer, and
DECRYPT's exponent undoes ENCRYPT's (`modPow_modPow`). -/
theorem rsaRoundTrip : Obligations.RsaRoundTrip := by
  intro s hinv hi hP hQ hne hN hed hlt hp
  have hN_lt : s.reg IR.N < 2 ^ s.width := hinv.reg_lt IR.N
  obtain ⟨t, hencrypt, ⟨hreg, -, -, hkb, -, -⟩, hidle, -, hout, -⟩ :=
    runs_command_finished hi (commandArgs_encrypt hlt) (Nat.le_of_lt hN_lt) hp
  have hinvt : Inv t := runs_preserves everyStepKeepsInvariant hinv hencrypt
  have hlen : t.output.length = t.olen := Memory.length_readBytes t.obuf 0 t.olen
  obtain ⟨l, hload, hvalue, hpl, hphase, hkbl, hregl⟩ :=
    runs_load (s := { t with pending := scriptEvents [.load t.output, .cmd .decrypt] })
      (rest := [commandEvent (encode .decrypt)]) (inv_pending hinvt _ t.reply) (hlen ▸ hinvt.lengths.2)
      (by simp [scriptEvents, ScriptLine.expand, commandEvent])
  have hkey : ∀ k, k ≠ IR.RES → l.reg k = s.reg k := fun k hk => (hregl k).trans (hreg k hk)
  have hwidth : l.width = s.width := congrArg width (hkbl.trans hkb)
  have hprod : l.reg IR.P * l.reg IR.Q = s.reg IR.N := by
    rw [hkey IR.P (by decide), hkey IR.Q (by decide), hN]
  have hargs := commandArgs_decrypt (s := l) (by omega) (by rwa [hprod, hwidth])
  rw [hvalue, hout, os2ip_i2ospMin, hkey IR.D (by decide), hprod] at hargs
  obtain ⟨u, hdecrypt, -, -, hres, -, hstatus⟩ :=
    runs_command_finished (hphase.trans hidle) hargs (hwidth ▸ Nat.le_of_lt hN_lt) hpl
  rw [hlen] at hload
  have hrun := runs_add hload hdecrypt
  have hsteps : t.olen + 2 + (bitlen (s.reg IR.D) + 1) = t.olen + 1 + (bitlen (s.reg IR.D) + 2) := by omega
  have hback : modPow (modPow s.inputValue (s.reg IR.E) (s.reg IR.N)) (s.reg IR.D) (s.reg IR.N) = s.inputValue := by
    rw [hN] at hlt ⊢
    exact modPow_modPow hP hQ hne hed hlt
  exact ⟨t, u, hencrypt, hidle, hsteps ▸ hrun, hres.trans hback, hstatus⟩

end Sys2Proof.Machine
end

section
/-! The registers that a command reads, and those that none reads (`10_state.md` R18, `42_decrypt.md` R102). -/

namespace Sys2Proof.Machine

/-- The registers that a command's checks and setup read (`40_modpow_engine.md` R77, `41_encrypt.md` R94,
`42_decrypt.md` R99). -/
def registersRead : Instr → List (Fin 12)
  | .modpow => [IR.OPB, IR.OPE, IR.OPM]
  | .encrypt => [IR.N, IR.E]
  | .decrypt => [IR.P, IR.Q, IR.D]

/-- A register that is not in `registersRead` has no part in the arguments. -/
theorem commandArgs_setReg {i : Instr} {k : Fin 12} (hk : k ∉ registersRead i) (s : State) (v : Nat) :
    commandArgs i (s.setReg k v) = commandArgs i s := by
  have hreg : ∀ j ∈ registersRead i, (s.setReg k v).reg j = s.reg j := fun j hj =>
    (s.setReg_reg k v j).trans (if_neg (ne_of_mem_of_not_mem hj hk))
  cases i <;> simp only [registersRead, List.forall_mem_cons] at hreg <;>
    simp only [commandArgs, hreg, State.setReg_inputValue, State.setReg_width]

/-- Another value in a register that a command neither reads nor writes stays there and changes nothing else. -/
theorem exec_setReg {i : Instr} {s t : State} {k : Fin 12} (hread : k ∉ registersRead i) (hres : k ≠ IR.RES) (v : Nat)
    (h : exec i s = .next t) : exec i (s.setReg k v) = .next (t.setReg k v) := by
  have hargs := commandArgs_setReg hread s v
  cases hp : s.phase with
  | run =>
    rw [exec_run hp] at h; cases h
    exact exec_run (s := s.setReg k v) hp i
  | idle =>
    rcases exec_idle hp i with ⟨b, e, m, hok, -, hx⟩ | ⟨x, herr, hx⟩ <;> rw [hx] at h <;> cases h
    · exact (exec_ok (s := s.setReg k v) hp (hargs.trans hok)).2
    · rw [exec_error (s := s.setReg k v) hp (hargs.trans herr), setReg_raise s k v _ x hres]

/-- The engine reads no register and writes `RES` only (`40_modpow_engine.md` R89). -/
theorem engineStep_setReg {s t : State} {k : Fin 12} (hres : k ≠ IR.RES) (v : Nat) (h : engineStep s = .next t) :
    engineStep (s.setReg k v) = .next (t.setReg k v) := by
  rcases engineStep_cases h with ⟨hi, rfl⟩ | ⟨hr, hx, hm, rfl⟩ | ⟨hr, hx, hl, rfl⟩
  · exact engineStep_idle (s := t.setReg k v) hi
  · exact engineStep_iterate (s := s.setReg k v) hr hx hm
  · rw [engineStep_finish (s := s.setReg k v) hr hx hl, State.setReg_wr, setReg_deliver s k v _ hres]
    rfl

/-- Settles O55: `DP`, `DQ` and `QINV` are in no command's `registersRead`, `N` is not in DECRYPT's, and none of the
four is `RES`. -/
theorem crtRegistersNeverRead : Obligations.CrtRegistersNeverRead := by
  intro s t k v
  refine ⟨fun hk i h => ?_, fun hk h => ?_, fun hk h => ?_⟩
  · have hread : k ∉ registersRead i := by rcases hk with rfl | rfl | rfl <;> cases i <;> decide
    exact exec_setReg hread (by rcases hk with rfl | rfl | rfl <;> decide) v h
  · subst hk
    exact exec_setReg (by decide) (by decide) v h
  · exact engineStep_setReg (by rcases hk with rfl | rfl | rfl | rfl <;> decide) v h

end Sys2Proof.Machine
end

section
/-! The host's transactions: a command (`43_host_interface.md` R113, R114), each access (R105 to R111), and the one
refusal (R104). -/

namespace Sys2Proof.Machine

/-! Commands. -/

/-- Settles O4: the step of a command is its `exec`. -/
theorem stepRunsDecodedCommand : Obligations.StepRunsDecodedCommand := by
  intro s w i rest hp hd
  rw [← advance_eq hp]
  exact step_command hp hd

/-- Settles O7: an acceptance in RUN is the identity, for a command and for an illegal word. -/
theorem commandWhileRunningIsIgnored : Obligations.CommandWhileRunningIsIgnored := by
  intro s hr
  refine ⟨exec_run hr, fun w rest hp => ?_⟩
  rw [← advance_eq hp]
  exact step_commandEvent_run hp hr

/-! Reads. -/

theorem readCtl_cmd (s : State) : readCtl s CTL.CMD = s.op := rfl

theorem readCtl_status (s : State) : readCtl s CTL.STATUS = s.status := rfl

theorem readCtl_ilen (s : State) : readCtl s CTL.ILEN = BitVec.ofNat 32 s.ilen := rfl

theorem readCtl_olen (s : State) : readCtl s CTL.OLEN = BitVec.ofNat 32 s.olen := rfl

/-- Settles O27: the value is `readCtl`, register by register; the sum is the word of `STATUS` as a number. -/
theorem rdCtlReturns : Obligations.RdCtlReturns := by
  intro s r rest hp
  refine ⟨readCtl s r, step_rdCtl hp, fun h => ?_, fun h => ?_, fun h => ?_, fun h => ?_, fun h => ?_,
    readCtl_reserved s⟩
  · obtain rfl : r = CTL.CMD := Fin.ext h
    exact readCtl_cmd s
  · obtain rfl : r = CTL.STATUS := Fin.ext h
    rw [readCtl_status, State.status_toNat]
  · obtain rfl : r = CTL.ILEN := Fin.ext h
    exact readCtl_ilen s
  · obtain rfl : r = CTL.OLEN := Fin.ext h
    exact readCtl_olen s
  · obtain rfl : r = CTL.CAP := Fin.ext h
    exact readCtl_cap s

theorem step_rdIR {s : State} {k : Fin 16} {rest : List Event} (hp : s.pending = .host (.rdIR k) :: rest) :
    step s = .next { s with pending := rest, reply := some (.int (readIR s k)) } := by
  rw [step_access hp nofun rfl, advance_eq hp]
  rfl

theorem readIR_of_val_eq (s : State) {k : Fin 16} {j : Fin 12} (h : j.val = k.val) : readIR s k = s.reg j := by
  have hk : k.val < 12 := h ▸ j.isLt
  obtain rfl : j = ⟨k.val, hk⟩ := Fin.ext h
  exact dif_pos hk

/-- Settles O32: the value is `readIR`, an implemented register or 0. -/
theorem rdIRReturns : Obligations.RdIRReturns := by
  intro s k rest hp
  exact ⟨readIR s k, step_rdIR hp, fun _ => readIR_of_val_eq s, readIR_reserved s⟩

theorem step_rdIBUF {s : State} {i : Fin 65536} {rest : List Event} (hp : s.pending = .host (.rdIBUF i) :: rest) :
    step s = .next { s with pending := rest, reply := some (.byte (readBuffer s s.ibuf i)) } := by
  rw [step_access hp nofun rfl, advance_eq hp]
  rfl

theorem readBuffer_inside {s : State} {i : Fin 65536} (hi : i.val < s.kbytes) (m : Memory) :
    readBuffer s m i = Memory.read m i.val := if_pos hi

/-- From `OLEN` on the output buffer reads 0x00, inside the capacity by the invariant (`10_state.md` R44 (c)). -/
theorem readBuffer_obuf_of_olen_le {s : State} (h : Inv s) {i : Fin 65536} (hi : s.olen ≤ i.val) :
    readBuffer s s.obuf i = 0#8 := by
  obtain ⟨-, -, hzero, -⟩ := h.output_ok
  by_cases hk : i.val < s.kbytes
  · rw [readBuffer_inside hk, hzero i.val hi]
  · exact readBuffer_outside (Nat.not_lt.1 hk) s.obuf

/-- Settles O34: the byte is `readBuffer` of the buffer named. -/
theorem rdBuffersReturn : Obligations.RdBuffersReturn := by
  intro s i rest
  constructor
  · intro hp
    exact ⟨readBuffer s s.ibuf i, step_rdIBUF hp, fun hi => readBuffer_inside hi _,
      fun hi => readBuffer_outside hi _⟩
  · intro hp
    exact ⟨readBuffer s s.obuf i, step_rdOBUF hp, fun hi => readBuffer_inside hi _, fun hi => readBuffer_outside hi _,
      fun hinv => readBuffer_obuf_of_olen_le hinv⟩

/-! Writes. -/

theorem writeCtl_eq (s : State) (r : Fin 65536) (v : Word32) :
    writeCtl s r v = { s with ilen := if r.val = 2 ∧ v.toNat ≤ s.kbytes then v.toNat else s.ilen } := by
  by_cases hr : r = CTL.ILEN
  · by_cases hv : v.toNat ≤ s.kbytes <;> simp [writeCtl, hr, hv]
  · have hval : r.val ≠ 2 := fun h => hr (Fin.ext h)
    rw [writeCtl_inert s hr, if_neg fun h => hval h.1]

/-- Settles O30: the step is `writeCtl`, which can change `ILEN` only. -/
theorem wrCtlOtherThanCommand : Obligations.WrCtlOtherThanCommand := by
  intro s r v rest hp hr
  have hcmd : r ≠ CTL.CMD := fun h => hr (congrArg Fin.val h)
  rw [step_access hp (isAccess_wrCtl hcmd v) rfl, hostAccess, writeCtl_eq, advance_eq hp]

theorem writeIR_reg (s : State) (k : Fin 16) (v : Nat) (j : Fin 12) :
    (writeIR s k v).reg j = if j.val = k.val ∧ k.val ≤ 10 then v else s.reg j := by
  by_cases hk : k.val < 11
  · simp [writeIR, hk, Fin.ext_iff, Nat.le_of_lt_succ hk]
  · rw [writeIR_inert s (Nat.not_lt.1 hk), if_neg fun h => hk (Nat.lt_succ_of_le h.2)]

theorem writeIR_frame (s : State) (k : Fin 16) (v : Nat) : writeIR s k v = { s with ir := (writeIR s k v).ir } := by
  by_cases hk : k.val < 11
  · simp [writeIR, hk, State.setReg]
  · rw [writeIR_inert s (Nat.not_lt.1 hk)]

/-- Settles O31: the step is `writeIR`, which can change one register of 0 to 10 only. -/
theorem wrIRWritesOneRegister : Obligations.WrIRWritesOneRegister := by
  intro s k v rest hp hv
  have hstep : step s = .next (writeIR s.advance k v) := step_access hp nofun (decide_eq_true hv)
  rw [advance_eq hp] at hstep
  exact ⟨_, hstep, writeIR_frame _ k v, writeIR_reg _ k v⟩

theorem writeIBUF_read {s : State} (h : Memory.wf s.ibuf = true) (i : Fin 65536) (b : Byte) (a : Nat) :
    Memory.read (writeIBUF s i b).ibuf a = if a = i.val ∧ i.val < s.kbytes then b else Memory.read s.ibuf a := by
  by_cases hi : i.val < s.kbytes
  · simp only [writeIBUF, hi, if_pos, and_true, Memory.read_write h]
  · rw [writeIBUF_outside (Nat.not_lt.1 hi), if_neg fun h => hi h.2]

theorem writeIBUF_frame (s : State) (i : Fin 65536) (b : Byte) :
    writeIBUF s i b = { s with ibuf := (writeIBUF s i b).ibuf } := by
  by_cases hi : i.val < s.kbytes
  · simp only [writeIBUF, hi, if_pos]
  · rw [writeIBUF_outside (Nat.not_lt.1 hi)]

/-- Settles O33: the step is `writeIBUF`, which can change one byte inside the capacity only. -/
theorem wrIBUFWritesOneByte : Obligations.WrIBUFWritesOneByte := by
  intro s i b rest hwf hp
  have hstep : step s = .next (writeIBUF s.advance i b) := step_access hp nofun rfl
  rw [advance_eq hp] at hstep
  exact ⟨_, hstep, writeIBUF_frame _ i b, writeIBUF_read (s := { s with pending := rest, reply := none }) hwf i b⟩

/-! The refusal. -/

/-- The one argument of a transaction whose range the type does not hold is the value of a `WrIR`. -/
theorem HostTxn.expressible_eq_false_iff (kb : Nat) (x : HostTxn) :
    x.expressible kb = false ↔ ∃ k v, x = .wrIR k v ∧ 2 ^ width kb ≤ v := by
  cases x <;> simp [HostTxn.expressible]

/-- Every transaction that can be expressed is performed: an acceptance and an access answer a next state. -/
theorem step_host_next {s : State} {x : HostTxn} {rest : List Event} (hp : s.pending = .host x :: rest)
    (he : x.expressible s.kbytes = true) : ∃ t, step s = .next t := by
  by_cases hx : isAccess x
  · exact ⟨_, step_access hp hx he⟩
  · obtain ⟨w, rfl⟩ : ∃ w, x = .wrCtl CTL.CMD w := by simpa [isAccess] using hx
    cases hd : decode w with
    | command i => rw [step_command hp hd]; exact exec_next i s.advance
    | illegal => exact ⟨_, step_illegal hp hd⟩

theorem step_eq_refused {s : State} {r : Refusal} (h : step s = .refused r) :
    r = .valueTooWide ∧ ∃ x rest, s.pending = .host x :: rest ∧ x.expressible s.kbytes = false := by
  cases hp : s.pending with
  | nil => exact absurd ((step_nil hp).symm.trans h) (engineStep_ne_refused _ r)
  | cons e rest =>
    cases e with
    | engine => exact absurd ((step_engine hp).symm.trans h) (engineStep_ne_refused _ r)
    | reset => rw [step_reset hp] at h; cases h
    | host x =>
      cases he : x.expressible s.kbytes with
      | true =>
        obtain ⟨t, ht⟩ := step_host_next hp he
        rw [ht] at h; cases h
      | false =>
        rw [step_inexpressible hp he] at h; cases h
        exact ⟨rfl, x, rest, rfl, he⟩

/-- Settles O36: a step is refused for a transaction that cannot be expressed, which only a `WrIR` can be. -/
theorem refusedExactlyWhenInexpressible : Obligations.RefusedExactlyWhenInexpressible := by
  intro s r
  constructor
  · intro h
    obtain ⟨hr, x, rest, hp, he⟩ := step_eq_refused h
    obtain ⟨k, v, rfl, hv⟩ := (HostTxn.expressible_eq_false_iff s.kbytes x).1 he
    exact ⟨hr, k, v, rest, hp, hv⟩
  · rintro ⟨rfl, k, v, rest, hp, hv⟩
    exact step_inexpressible hp ((HostTxn.expressible_eq_false_iff s.kbytes _).2 ⟨k, v, rfl, hv⟩)

end Sys2Proof.Machine
end

section
/-! Nothing stops the machine (`60_exceptions.md` R128, R141): under `Inv`, with transactions the host can express,
every step answers, and the state it answers is of the same kind. -/

namespace Sys2Proof.Machine

/-- A transaction is refused only when it cannot be expressed, and the engine faults only where `Inv` fails. -/
theorem step_next {s : State} (h : Inv s) (hw : pendingWellFormed s) : ∃ t, step s = .next t := by
  cases hp : s.pending with
  | nil => rw [step_nil hp]; exact engineStep_next (inv_advance h)
  | cons e rest =>
    cases e with
    | host x =>
      have he : (Event.host x).wellFormed s.kbytes = true := hw _ (by simp [hp])
      exact step_host_next hp he
    | engine => rw [step_engine hp]; exact engineStep_next (inv_advance h)
    | reset => exact ⟨_, step_reset hp⟩

/-- A step takes the head of `pending` and keeps the capacity, so what is left stays expressible. -/
theorem pendingWellFormed_of_step {s t : State} (hw : pendingWellFormed s) (h : step s = .next t) :
    pendingWellFormed t := by
  obtain ⟨hkb, hp⟩ := step_kbytes_pending h
  intro e he
  rw [hkb]
  exact hw e (List.mem_of_mem_tail (hp ▸ he))

/-- Settles O44, by induction on the number of steps: one step answers a state of the same kind, and the rest run from
there. -/
theorem machineNeverStops : Obligations.MachineNeverStops := by
  intro n
  induction n with
  | zero => exact fun s h hw => ⟨s, (runs_zero s s).2 rfl, h, hw⟩
  | succ n ih =>
    intro s h hw
    obtain ⟨t, hst⟩ := step_next h hw
    obtain ⟨u, hrun, hu⟩ := ih t (everyStepKeepsInvariant s t h hst) (pendingWellFormed_of_step hw hst)
    exact ⟨u, (runs_succ hst).2 hrun, hu⟩

end Sys2Proof.Machine
end

section
/-! Which command raises which error, and that no other step does (`60_exceptions.md` R122 to R125). -/

namespace Sys2Proof.Machine

/-- The `ERRCODE` with which an acceptance ends, by the outcome of its checks (`60_exceptions.md` R122, R127). -/
def acceptanceCode : Except Err (Nat × Nat × Nat) → BitVec 4
  | .ok _ => 0#4
  | .error x => x.code

theorem exec_errcode {i : Instr} {s t : State} (hi : s.phase = .idle) (h : exec i s = .next t) :
    t.errcode = acceptanceCode (commandArgs i s) := by
  rcases exec_idle hi i with ⟨b, e, m, hargs, -, hx⟩ | ⟨x, hargs, hx⟩
  · rw [hx] at h; cases h
    rw [hargs]; rfl
  · rw [hx] at h; cases h
    rw [hargs]; rfl

theorem acceptanceCode_modpow (s : State) :
    acceptanceCode (commandArgs .modpow s) = if s.reg IR.OPM = 0 then 2#4 else 0#4 := by
  split
  · next h => rw [commandArgs_modpow_zero h]; rfl
  · next h => rw [commandArgs_modpow h]; rfl

theorem acceptanceCode_encrypt (s : State) :
    acceptanceCode (commandArgs .encrypt s) = if s.inputValue ≥ s.reg IR.N then 1#4 else 0#4 := by
  split
  · next h => rw [commandArgs_encrypt_tooLong h]; rfl
  · next h => rw [commandArgs_encrypt (Nat.not_le.1 h)]; rfl

theorem acceptanceCode_decrypt (s : State) :
    acceptanceCode (commandArgs .decrypt s) =
      if s.reg IR.P * s.reg IR.Q = 0 ∨ s.reg IR.P * s.reg IR.Q ≥ 2 ^ s.width then 2#4 else 0#4 := by
  split
  · next h => rw [commandArgs_decrypt_invalid h]; rfl
  · next h =>
    obtain ⟨hne, hlt⟩ := not_or.1 h
    rw [commandArgs_decrypt (Nat.pos_of_ne_zero hne) (Nat.not_le.1 hlt)]; rfl

/-- A command's write to `CMD` in IDLE answers with the code of its checks. -/
theorem step_command_errcode {s : State} {i : Instr} {rest : List Event}
    (hp : s.pending = commandEvent (encode i) :: rest) (hi : s.phase = .idle) :
    ∃ t, step s = .next t ∧ t.errcode = acceptanceCode (commandArgs i s) := by
  have hstep := step_command hp (decode_encode i)
  obtain ⟨t, hx⟩ := exec_next i s.advance
  rw [← commandArgs_advance]
  exact ⟨t, hstep.trans hx, exec_errcode hi hx⟩

theorem hostAccess_errcode (x : HostTxn) (s : State) : (hostAccess x s).errcode = s.errcode := by
  obtain ⟨-, -, -, -, -, -, -, herr, -⟩ := hostAccess_frame x s
  exact herr

/-- Only the two outcomes of an acceptance and reset write `ERRCODE`. -/
theorem errcode_changes_only {s t : State} (h : step s = .next t) (hne : t.errcode ≠ s.errcode) :
    (s.phase = .idle ∧ ∃ w rest, s.pending = commandEvent w :: rest) ∨
    (∃ rest, s.pending = .reset :: rest ∧ t.errcode = 0#4) := by
  cases stepEffect_of_step h with
  | ignored => exact absurd rfl hne
  | started i b e m rest hp hi => exact .inl ⟨hi, _, rest, hp⟩
  | raised w x rest hp hi => exact .inl ⟨hi, w, rest, hp⟩
  | access x => exact absurd (hostAccess_errcode x s.advance) hne
  | idled => exact absurd rfl hne
  | iterated => exact absurd rfl hne
  | finished => exact absurd rfl hne
  | reset rest hp => exact .inr ⟨rest, hp, rfl⟩

/-- Settles O12: the first three rows of the table are the checks of the three commands, the last is every word that is
none of theirs. -/
theorem errorsOnlyAtAcceptance : Obligations.ErrorsOnlyAtAcceptance := by
  refine ⟨fun s w rest hp hi => ?_, fun s t => errcode_changes_only⟩
  split
  · next h1 => subst h1; rw [← acceptanceCode_modpow]; exact step_command_errcode hp hi
  · next h1 =>
    split
    · next h2 => subst h2; rw [← acceptanceCode_encrypt]; exact step_command_errcode hp hi
    · next h2 =>
      split
      · next h3 => subst h3; rw [← acceptanceCode_decrypt]; exact step_command_errcode hp hi
      · next h3 =>
        obtain ⟨herr, -⟩ := illegalWordCompletesWithError s w rest hp h1 h2 h3
        obtain ⟨t, hstep, -, hcode, -⟩ := herr hi
        exact ⟨t, hstep, hcode⟩

end Sys2Proof.Machine
end

section
/-! Several blocks side by side (`60_exceptions.md` R137). -/

namespace Sys2Proof.Machine

/-- Everything a step of block `k` can do when it answers: nothing where there is no such block, otherwise that block's
own step in its place. -/
theorem stepInstance_cases {k : Nat} {bs cs : Instances} (h : stepInstance k bs = .next cs) :
    (bs[k]? = none ∧ cs = bs) ∨ (∃ s t, bs[k]? = some s ∧ step s = .next t ∧ cs = bs.set k t) := by
  rw [stepInstance] at h
  split at h
  · next hk => cases h; exact .inl ⟨hk, rfl⟩
  · next s hk =>
    split at h
    · next t hst => cases h; exact .inr ⟨s, t, hk, hst, rfl⟩
    · cases h
    · cases h

/-- Settles O58: replacing the entry of block `k` leaves every other entry as it is. -/
theorem instancesShareNothing : Obligations.InstancesShareNothing := by
  intro bs cs k h
  rcases stepInstance_cases h with ⟨hk, rfl⟩ | ⟨s, t, hk, hst, rfl⟩
  · exact ⟨fun _ _ => rfl, fun s hs => nomatch hk.symm.trans hs⟩
  · obtain ⟨hlt, -⟩ := List.getElem?_eq_some_iff.1 hk
    refine ⟨fun j hj => List.getElem?_set_ne hj.symm, fun s' hs' => ?_⟩
    obtain rfl : s = s' := Option.some.inj (hk.symm.trans hs')
    exact ⟨t, hst, List.getElem?_set_self hlt⟩

end Sys2Proof.Machine
end

section
/-! The reset state: every command fails (`70_reset_and_hazards.md` R144). -/

namespace Sys2Proof.Machine

/-- A command's write to `CMD` in IDLE whose checks fail ends in the error completion (`60_exceptions.md` R127). -/
theorem step_command_error {s : State} {i : Instr} {x : Err} {rest : List Event}
    (hp : s.pending = commandEvent (encode i) :: rest) (hi : s.phase = .idle)
    (hargs : commandArgs i s.advance = .error x) :
    ∃ t, step s = .next t ∧ ErrorCompletion (encode i) x s.advance t :=
  ⟨_, (step_command hp (decode_encode i)).trans (exec_error hi hargs),
    errorCompletion_raise (s := s.advance) hi _ _⟩

/-- With every register 0, `OPM` and `P*Q` are 0 and no message is below `N`. -/
theorem commandArgs_resetWith (kb : Nat) (i : Instr) :
    commandArgs i (State.resetWith kb) =
      .error (match i with
        | .modpow | .decrypt => .invalidParameters
        | .encrypt => .messageTooLong) := by
  cases i with
  | modpow => exact commandArgs_modpow_zero (State.resetWith_reg kb IR.OPM)
  | encrypt => exact commandArgs_encrypt_tooLong ((State.resetWith_reg kb IR.N).trans_le (Nat.zero_le _))
  | decrypt => exact commandArgs_decrypt_invalid (.inl (by rw [State.resetWith_reg, Nat.zero_mul]))

/-- Settles O40: the checks of each command fail on registers that are all 0; any other word is illegal. -/
theorem resetStateCommandsAllFail : Obligations.ResetStateCommandsAllFail := by
  intro kb w
  cases hd : decode w with
  | command i =>
    obtain rfl := eq_encode_of_decode hd
    have h := step_command_error (s := { State.resetWith kb with pending := [commandEvent (encode i)] }) rfl rfl
      (commandArgs_resetWith kb i)
    cases i with
    | modpow => exact h
    | encrypt => exact h
    | decrypt => exact h
  | illegal =>
    have hne : ∀ i, w ≠ encode i := (decode_illegal_iff w).1 hd
    have h1 : w ≠ 1#32 := hne .modpow
    have h2 : w ≠ 2#32 := hne .encrypt
    have h3 : w ≠ 3#32 := hne .decrypt
    obtain ⟨herr, -⟩ := illegalWordCompletesWithError { State.resetWith kb with pending := [commandEvent w] } w [] rfl
      h1 h2 h3
    obtain ⟨t, hstep, hcompletion, -⟩ := herr rfl
    rw [if_neg (not_or.2 ⟨h1, h3⟩), if_neg h2]
    exact ⟨t, hstep, hcompletion⟩

end Sys2Proof.Machine
end
